-- ==== Sys2Proof/Word.lean ====
section
/-! DEFINITION. The word types of osmmu: the fixed widths of 00_scope.md R7 and 43_arithmetic_laws.md R180. Every value is
unsigned (R11) and bit 0 is the least significant bit (R10). -/

namespace Sys2Proof

/-- A 32-bit value: a virtual or physical address, a mask, a page-table entry, a VPN or an offset (R7, R180). -/
abbrev Word := BitVec 32

/-- A 40-bit command word: OPC in bits 39..32, ARG in bits 31..0 (30_encoding.md R81). -/
abbrev CommandWord := BitVec 40

/-- A 40-bit response word: STATUS in bits 39..32, DATA in bits 31..0 (30_encoding.md R90). -/
abbrev ResponseWord := BitVec 40

/-- A 64-bit trace record (30_encoding.md R94). -/
abbrev TraceWord := BitVec 64

end Sys2Proof
end

