-- ==== Sys2Proof/Syntax.lean ====
section
/-! DEFINITION. The operations of osmmu: exactly the four rows of spec/opcode_table.json (30_encoding.md R83, R84). -/

namespace Sys2Proof

/-- One decoded command (30_encoding.md R82). A constructor's arguments are the operand fields of its format (R81): every
field is one contiguous slice used as an unsigned number (R88). -/
inductive Instr where
  /-- LAYOUT, format L: `asb16` is the document's `address_space_bits`, `ps16` its `page_size` in bytes (R86; R110). -/
  | layout (asb16 ps16 : BitVec 16)
  /-- ALLOC, format Z: no operand (R85; R130). -/
  | alloc
  /-- INIT, format Z: no operand (R85; R134). -/
  | init
  /-- XLATE, format X: `va` is the virtual address (R87; R150). -/
  | xlate (va : Word)
  deriving DecidableEq, Repr

end Sys2Proof
end

