-- ==== Sys2Proof/WellFormed.lean ====
section
/-! DEFINITION. Which command words are legal (30_encoding.md R89), and which instructions are well formed. -/

namespace Sys2Proof

/-- CW[39:32], the opcode (30_encoding.md R81). -/
def opcodeField (w : CommandWord) : BitVec 8 := w.extractLsb' 32 8

/-- CW[31:0], the operand (30_encoding.md R81). -/
def argField (w : CommandWord) : Word := w.extractLsb' 0 32

/-- A command word is legal when its opcode is one of 0x01 .. 0x04 and, for ALLOC and INIT, its ARG is zero (30_encoding.md
R89, R85). -/
def wordLegal (w : CommandWord) : Bool :=
  opcodeField w == 0x01 || opcodeField w == 0x04
    || (opcodeField w == 0x02 && argField w == 0) || (opcodeField w == 0x03 && argField w == 0)

/-- The opcode of an instruction (30_encoding.md R83). -/
def Instr.opcode (i : Instr) : BitVec 8 :=
  match i with
  | .layout _ _ => 0x01
  | .alloc => 0x02
  | .init => 0x03
  | .xlate _ => 0x04

/-- Every value of every operand field can be encoded: all 2^32 ARG values of LAYOUT (30_encoding.md R86) and of XLATE
(R87) are legal words, and ALLOC and INIT have no operand (R85). The fields' widths are their types, so nothing is left to
check here; the checks the spec has are on words, `wordLegal`. -/
def Instr.wellFormed (i : Instr) : Bool :=
  match i with
  | .layout _ _ => true
  | .alloc => true
  | .init => true
  | .xlate _ => true

end Sys2Proof
end

