-- ==== Sys2Proof/Decode.lean ====
section
/-! DEFINITION. Decoding a command word, total and independent of every state (30_encoding.md R82), and after it the encoder
(R81, R83, R95). -/

namespace Sys2Proof

/-- Why a word is ILLEGAL (30_encoding.md R89). The spec has one answer for both, IllegalCommand; the two names only say which
half of R89 applies (DESIGN CHOICE, log 17). -/
inductive DecodeError where
  /-- OPC is not one of 0x01 .. 0x04. -/
  | unknownOpcode (opc : BitVec 8)
  /-- OPC is 0x02 or 0x03 (format Z) and ARG is not zero. -/
  | operandNotZero (opc : BitVec 8)
  deriving DecidableEq, Repr

/-- Format Z: the operand must be zero (30_encoding.md R85). -/
def decodeZ (opc : BitVec 8) (arg : Word) (i : Instr) : Except DecodeError Instr :=
  if arg = 0 then .ok i else .error (.operandNotZero opc)

/-- The decoder of 30_encoding.md R82, in its order of tests. All eight opcode bits are compared. -/
def decode (w : CommandWord) : Except DecodeError Instr :=
  if opcodeField w = 0x01 then
    .ok (.layout ((argField w).extractLsb' 16 16) ((argField w).extractLsb' 0 16))
  else if opcodeField w = 0x02 then decodeZ 0x02 (argField w) .alloc
  else if opcodeField w = 0x03 then decodeZ 0x03 (argField w) .init
  else if opcodeField w = 0x04 then .ok (.xlate (argField w))
  else .error (.unknownOpcode (opcodeField w))

/-- The command word of an instruction (30_encoding.md R81, R83, R95): opcode, then the operand fields, high bits first. -/
def encode (i : Instr) : CommandWord :=
  match i with
  | .layout asb16 ps16 => (0x01 : BitVec 8) ++ (asb16 ++ ps16 : BitVec 32)
  | .alloc => (0x02 : BitVec 8) ++ (0 : BitVec 32)
  | .init => (0x03 : BitVec 8) ++ (0 : BitVec 32)
  | .xlate va => (0x04 : BitVec 8) ++ va

/-- The command word whose bits are the low `nbits` bits of `w`, numbered as the opcode table numbers them (bit 0 is the least
significant bit of the one 40-bit word), all bits above them zero (log 18). -/
def commandWord (nbits w : Nat) : CommandWord := BitVec.ofNat 40 (w % 2 ^ nbits)

/-- What the decoder reads from a word of the opcode table; none where it refuses. -/
def decodeTableWord (nbits w : Nat) : Option Instr := (decode (commandWord nbits w)).toOption

end Sys2Proof
end

