-- ==== Sys2Proof/Config.lean ====
section
/-! DEFINITION. The parameters the document leaves to the implementation (00_scope.md R9). They are fields of State that no
step changes, so a statement about every state is a statement about every value of them (log 4). The spec leaves no value of
any result undefined, so there is no free value here. -/

namespace Sys2Proof

/-- How a PTE word would be laid out in bytes if the table memory were byte-addressed; no rule reads it (00_scope.md R9,
20_memory.md R51). -/
inductive ByteOrder where
  | little
  | big
  deriving DecidableEq, Repr

/-- The parameters of one osmmu (00_scope.md R9; 92_eei_decisions.md D17, D19, D22). -/
structure Params where
  /-- TABLE_CAP, the largest number of entries the table memory can hold, 1 .. 2^32; 33 bits, as R189 compares it. -/
  tableCap : BitVec 33
  /-- TRACE_EN, whether XLATE emits the diagnostic trace record. -/
  traceEn : Bool
  /-- PTE_BYTE_ORDER, read by no operation. -/
  pteByteOrder : ByteOrder
  deriving DecidableEq, Repr

/-- The defaults of 00_scope.md R9: TABLE_CAP = 2^32 and TRACE_EN = true. For PTE_BYTE_ORDER the spec gives no default and
no rule reads it: little is the model's (DESIGN CHOICE, log 4). -/
def Params.default : Params :=
  { tableCap := BitVec.ofNat 33 (2 ^ 32), traceEn := true, pteByteOrder := .little }

end Sys2Proof
end

