-- ==== Sys2Proof/Machine/State.lean ====
section
/-! DEFINITION. The architectural state of one osmmu instance (10_state.md R20, "the following list and nothing else"), the
contents of its ports, and the parameters; the state after reset (R39); the names of what can stop a step. -/

namespace Sys2Proof
namespace Machine

/-- PHASE, the construction-sequence register: its five legal values (10_state.md R23). The codes 5, 6 and 7 are never taken,
so they have no constructor (log 14); `phaseCode` gives the 3-bit codes. -/
inductive Phase where
  /-- 0: nothing computed, no table. -/
  | reset
  /-- 1: ASB, PS and the five layout constants are valid. -/
  | laidOut
  /-- 2: NUM_PTES valid, PTBR.OWN = 1, every entry zero. -/
  | allocated
  /-- 3: TBL holds the init pattern, XLATE is accepted. -/
  | ready
  /-- 4: allocation failed, left by reset only. -/
  | failed
  deriving DecidableEq, Repr

/-- The statuses of a response (30_encoding.md R91; 60_exceptions.md R200); `statusCode` gives the numbers. -/
inductive Status where
  | ok
  | notValid
  | notAccessible
  | outOfRange
  | invalidConfiguration
  | allocFailure
  | badSequence
  | illegalCommand
  deriving DecidableEq, Repr

/-- What an unlisted word of the table memory reads as (log 5): `Memory.unlisted` gives the two meanings. -/
inductive Fill where
  /-- ALLOC's zero fill (41_table_alloc_init.md R132). -/
  | zero
  /-- INIT's synthetic pattern (41_table_alloc_init.md R137). -/
  | pattern
  deriving DecidableEq, Repr

/-- The private table memory holding TBL (20_memory.md R50), words keyed by entry index. `cells` lists, at strictly rising
indices, exactly the words that differ from what the fill gives (`Memory.wf`), so equal tables under one fill are equal data.
There are no bytes: the only access width is 32 bits (R51, R55). -/
structure Memory where
  fill : Fill
  cells : List (Nat × Word)
  deriving DecidableEq, Repr

/-- The table memory when no table exists (10_state.md R32, R39), and the table ALLOC creates (R132): nothing listed, every
word zero. -/
def Memory.zeroed : Memory := { fill := .zero, cells := [] }

/-- What the requester can do to the instance (30_encoding.md R80; 70_reset_and_hazards.md R240). -/
inductive HostInput where
  /-- Present one 40-bit command word on the command port. -/
  | command (w : CommandWord)
  /-- Reset the instance. -/
  | reset
  deriving DecidableEq, Repr

/-- The state of one osmmu instance. The first eleven fields are the elements of 10_state.md R20 (PTBR.BASE is hard-wired
to 0: `ptbrBase`, log 7). -/
structure State where
  /-- PHASE (R23). -/
  phase : Phase
  /-- ASB, `address_space_bits` (R24). -/
  asb : BitVec 6
  /-- PS, `page_size` in bytes (R25). -/
  ps : BitVec 13
  /-- PSB, `page_size_bits` (R26). -/
  psb : BitVec 4
  /-- VPN_MASK (R27). -/
  vpnMask : Word
  /-- SHIFT (R28). -/
  shift : BitVec 4
  /-- PFN_SHIFT (R29). -/
  pfnShift : BitVec 4
  /-- OFFSET_MASK (R30). -/
  offsetMask : Word
  /-- NUM_PTES (R31). -/
  numPtes : BitVec 33
  /-- PTBR.OWN (R33). -/
  ptbrOwn : Bool
  /-- TBL (R32). -/
  tbl : Memory
  /-- The implementation parameters (00_scope.md R9). No step writes them. -/
  params : Params
  /-- What the requester will present, next first (R80, R253; log 1). -/
  inputs : List HostInput
  /-- The response stream since reset, oldest first (30_encoding.md R90; log 2). -/
  responses : List ResponseWord
  /-- The trace stream since reset, oldest first (30_encoding.md R94; log 2). -/
  traces : List TraceWord
  deriving DecidableEq, Repr

/-- What stops a step without a response. Each is SAFE: it stands where the spec performs no such access, and no state of
`State.Inv`, hence no run from reset, meets one. -/
inductive Fault where
  /-- Raised by `memRead`, `memWrite` and INIT: an access to TBL while PTBR.OWN = 0, when TBL does not exist (10_state.md
  R32). Safe. -/
  | tableNotOwned
  /-- Raised by `memRead` and `memWrite`: a byte offset that is not 4-aligned or lies at or beyond 4 * NUM_PTES, which the
  spec says is never formed (20_memory.md R52, R53, R54). Safe. -/
  | tableAddress
  /-- Raised by ALLOC: ASB < PSB, for which there is no entry count and which the spec says cannot arise
  (41_table_alloc_init.md R131). Safe. -/
  | noEntryCount
  deriving DecidableEq, Repr

/-- Why an instruction is given no meaning. -/
inductive Refusal where
  /-- Raised by a refused arm of `exec`, by name. There is no such arm: every instruction of the opcode table has its
  meaning. Safe. -/
  | notModelled (mnemonic : String)
  deriving DecidableEq, Repr

/-- The instance right after reset (10_state.md R39): PHASE = RESET, PTBR.OWN = 0, no table, both streams empty. The registers
the spec leaves unspecified hold 0 (DESIGN CHOICE, log 3); the parameters are at the defaults of 00_scope.md R9 (log 4);
the requester has presented nothing yet (log 1). -/
def State.reset : State :=
  { phase := .reset
    asb := 0
    ps := 0
    psb := 0
    vpnMask := 0
    shift := 0
    pfnShift := 0
    offsetMask := 0
    numPtes := 0
    ptbrOwn := false
    tbl := Memory.zeroed
    params := Params.default
    inputs := []
    responses := []
    traces := [] }

end Machine
end Sys2Proof
end

