-- ==== Sys2Proof/Machine/Operands.lean ====
section
/-! DEFINITION. The datapath primitives (43_arithmetic_laws.md R181 to R187) and the operand computations of the four
operations: the page-size exponent and the configuration check (40_geometry.md R111), the entry count (41 R131), the fill
pattern's word (41 R135, R136), the PTE's frame number (42 R155), VPN, offset and physical address (42 R151, R157, R158). -/

namespace Sys2Proof
namespace Machine

/-- Logical right shift `a >>_N n`: the floor of a / 2^n, zero for n at or above the width; the amount is never reduced
modulo the width (43_arithmetic_laws.md R181). -/
def lshr {N : Nat} (a : BitVec N) (n : Nat) : BitVec N := a >>> n

/-- Left shift `a <<_N n`: (a * 2^n) mod 2^N, zero for n at or above the width (43_arithmetic_laws.md R182). -/
def shl {N : Nat} (a : BitVec N) (n : Nat) : BitVec N := a <<< n

/-- The exponents of the legal page sizes, 0 .. 12 (40_geometry.md R111 condition 3). -/
def pageExponents : List (Fin 13) := [0, 1, 2, 3, 4, 5, 6, 7, 8, 9, 10, 11, 12]

/-- The exact logarithm of a legal page size, the index of its single set bit; none on any other number, where osmmu
never evaluates it (43_arithmetic_laws.md R183; 40_geometry.md R112; log 20). -/
def log2Exact (p : Nat) : Option (Fin 13) := pageExponents.find? (fun k => p == 2 ^ k.val)

/-- `valid_config`, the four conditions of 40_geometry.md R111 in their order. -/
def validConfig (asb16 ps16 : BitVec 16) : Bool :=
  (decide (1 ≤ asb16.toNat) && decide (asb16.toNat ≤ 32))
    && (decide (1 ≤ ps16.toNat) && decide (ps16.toNat ≤ 4096))
    && match log2Exact ps16.toNat with
       | some k => decide (k.val ≤ asb16.toNat)
       | none => false

/-- The page-size exponent of a valid configuration; none where `validConfig` fails, so that the logarithm is used on
validated operands only (40_geometry.md R110, R112). -/
def configExponent (asb16 ps16 : BitVec 16) : Option (Fin 13) :=
  if validConfig asb16 ps16 then log2Exact ps16.toNat else none

/-- The entry count 2^(asb - psb), exact (41_table_alloc_init.md R131; 43_arithmetic_laws.md R184). Meant for psb ≤ asb. -/
def entryCount (asb psb : Nat) : Nat := 2 ^ (asb - psb)

/-- The flag bits INIT gives entry `i`: valid only for every fourth entry, valid and accessible otherwise
(41_table_alloc_init.md R135). -/
def initFlags (i : Nat) : Word := if i % 4 = 0 then 0x1 else 0x3

/-- The word INIT writes at index `i`: frame number (2*i) mod 2^20 at bit 12 whatever the page size is, and the flags
(41_table_alloc_init.md R134, R135, R136, R140). -/
def initWord (i : Nat) : Word := shl (BitVec.ofNat 32 ((2 * i) % 2 ^ 20)) 12 ||| initFlags i

/-- `pfn = entry >> 12`, the 20-bit field e[31:12] (42_translate.md R155; 30_encoding.md R92). -/
def ptePfn (e : Word) : BitVec 20 := e.extractLsb' 12 20

/-- `vpn = (va & vpn_mask) >> shift` (42_translate.md R151). -/
def extractVpn (s : State) (va : Word) : Word := lshr (va &&& s.vpnMask) s.shift.toNat

/-- `offset = va & offset_mask` (42_translate.md R157). -/
def extractOffset (s : State) (va : Word) : Word := va &&& s.offsetMask

/-- `physical_address = (pfn << pfn_shift) | offset`, at 32 bits (42_translate.md R158): PFN_SHIFT, not the constant 12. -/
def physicalAddress (s : State) (pfn : BitVec 20) (va : Word) : Word :=
  shl (pfn.setWidth 32) s.pfnShift.toNat ||| extractOffset s va

end Machine
end Sys2Proof
end

