-- ==== Sys2Proof/Machine/Flags.lean ====
section
/-! DEFINITION. osmmu has no flags register and no condition codes (10_state.md R35). What stands here instead: the two flag
bits of a page-table entry and the decision they make (42_translate.md R155, R156), and the numbers of PHASE and STATUS. -/

namespace Sys2Proof
namespace Machine

/-- VALID, `entry & 1` (42_translate.md R155). -/
def pteValid (e : Word) : BitVec 1 := e.extractLsb' 0 1

/-- ACCESS, `(entry >> 1) & 1` (42_translate.md R155). -/
def pteAccess (e : Word) : BitVec 1 := e.extractLsb' 1 1

/-- The permission decision: valid is tested first, then access; nothing else of the entry is looked at (42_translate.md R156,
R163, R164). -/
def permission (e : Word) : Status :=
  if pteValid e = 0 then .notValid else if pteAccess e = 0 then .notAccessible else .ok

/-- STATUS numbers (30_encoding.md R91). -/
def statusCode (st : Status) : BitVec 8 :=
  match st with
  | .ok => 0x00
  | .notValid => 0x01
  | .notAccessible => 0x02
  | .outOfRange => 0x03
  | .invalidConfiguration => 0x04
  | .allocFailure => 0x05
  | .badSequence => 0x06
  | .illegalCommand => 0x07

/-- The 3-bit values of PHASE (10_state.md R23). -/
def phaseCode (p : Phase) : BitVec 3 :=
  match p with
  | .reset => 0
  | .laidOut => 1
  | .allocated => 2
  | .ready => 3
  | .failed => 4

end Machine
end Sys2Proof
end

