-- ==== Sys2Proof/Machine/Ops.lean ====
section
/-! DEFINITION. The named operations every meaning is built from: the ports (responses, trace records, `raise`), the table
memory (20_memory.md R50 to R55), the register writes of LAYOUT, ALLOC and INIT, and reset. -/

namespace Sys2Proof
namespace Machine

/-- The outcome of a step of this machine. -/
abbrev Result := Host.Outcome State Fault Refusal

/-! ### The response port and faults -/

/-- The response word: STATUS in bits 39..32, DATA in bits 31..0 (30_encoding.md R90). -/
def respWord (st : Status) (data : Word) : ResponseWord := statusCode st ++ data

/-- RW[39:32] (30_encoding.md R90). -/
def respStatus (rw : ResponseWord) : BitVec 8 := rw.extractLsb' 32 8

/-- RW[31:0] (30_encoding.md R90). -/
def respData (rw : ResponseWord) : Word := rw.extractLsb' 0 32

/-- Put one word on the response stream. -/
def State.pushResponse (s : State) (rw : ResponseWord) : State := { s with responses := s.responses ++ [rw] }

/-- `respond(STATUS, data)`: end the operation with one response (00_scope.md R13; 30_encoding.md R80, R90). -/
def respond (st : Status) (data : Word) (s : State) : Result := .next (s.pushResponse (respWord st data))

/-- `raise F`, the one way a fault is taken (60_exceptions.md R204): the response carries the fault's code and DATA = 0, and no
state is written. Nothing is saved, no mode changes, control goes nowhere, and there is no return operation because there
is nothing to return from (R210, R212, R214). -/
def raise (st : Status) (s : State) : Result := respond st 0 s

/-! ### The trace port -/

/-- The trace record of an XLATE that read the entry `e`: VPN, PFN, NOENT = 0, ACCESS, VALID (30_encoding.md R94). -/
def traceEntry (vpn e : Word) : TraceWord :=
  vpn ++ (ptePfn e ++ ((0 : BitVec 10) ++ (pteAccess e ++ pteValid e : BitVec 2) : BitVec 12) : BitVec 32)

/-- The trace record of an XLATE out of range: NOENT = 1, every other field but VPN zero (30_encoding.md R94). -/
def traceNoEntry (vpn : Word) : TraceWord := vpn ++ (0x00000004 : BitVec 32)

/-- `trace(rec)`: append one record when TRACE_EN (00_scope.md R13; 42_translate.md R160). -/
def State.emitTrace (s : State) (tr : TraceWord) : State :=
  if s.params.traceEn then { s with traces := s.traces ++ [tr] } else s

/-! ### The table memory -/

/-- PTBR.BASE, hard-wired to 0 (10_state.md R33, R39; log 7). -/
def ptbrBase : Nat := 0

/-- The byte offset of entry `i`: PTBR.BASE + 4*i, exact (20_memory.md R50; 42_translate.md R153). -/
def pteOffset (i : Nat) : Nat := ptbrBase + 4 * i

/-- What a word of the table reads as when `cells` does not list it, in a table of `n` entries: the ONE definition of it
(log 5). Under the init fill it is the closed form of 41_table_alloc_init.md R137. -/
def Memory.unlisted (m : Memory) (n i : Nat) : Word :=
  match m.fill with
  | .zero => 0
  | .pattern => if i < n / 2 then initWord i else 0

/-- The word `cells` lists at index `i`. -/
def lookupCell : List (Nat × Word) → Nat → Option Word
  | [], _ => none
  | (j, v) :: cs, i => if i = j then some v else lookupCell cs i

/-- List `v` at index `i`, keeping the order and replacing what was listed there. -/
def insertCell : List (Nat × Word) → Nat → Word → List (Nat × Word)
  | [], i, v => [(i, v)]
  | (j, u) :: cs, i, v =>
    if i < j then (i, v) :: (j, u) :: cs
    else if i = j then (i, v) :: cs
    else (j, u) :: insertCell cs i v

/-- List nothing at index `i`. -/
def eraseCell (cs : List (Nat × Word)) (i : Nat) : List (Nat × Word) := cs.filter (fun c => decide (c.1 ≠ i))

/-- TBL[i] in a table of `n` entries. -/
def Memory.read (m : Memory) (n i : Nat) : Word := (lookupCell m.cells i).getD (m.unlisted n i)

/-- TBL[i] <- v, keeping the canonical form. -/
def Memory.write (m : Memory) (n i : Nat) (v : Word) : Memory :=
  if v = m.unlisted n i then { m with cells := eraseCell m.cells i }
  else { m with cells := insertCell m.cells i v }

/-- INIT's fill of a table of `n` entries: entries below n div 2 take the init pattern, the others keep their words
(41_table_alloc_init.md R134, R138). One update stands for the spec's loop; `execInitLoop` is that loop (log 10). -/
def Memory.fillLower (m : Memory) (n : Nat) : Memory :=
  { fill := .pattern, cells := m.cells.filter (fun c => decide (n / 2 ≤ c.1)) }

/-- The canonical form of a table of `n` entries: indices strictly rising, inside the table, and no word listed that the
fill gives anyway. -/
abbrev Memory.wf (m : Memory) (n : Nat) : Prop :=
  m.cells.Pairwise (fun a b => a.1 < b.1) ∧ ∀ c ∈ m.cells, c.1 < n ∧ c.2 ≠ m.unlisted n c.1

/-- TBL[i] of the instance (10_state.md R32), meant for i < NUM_PTES and PTBR.OWN = 1. -/
def State.entry (s : State) (i : Nat) : Word := s.tbl.read s.numPtes.toNat i

/-- The domain of a table access at byte offset `addr`: TBL exists only while PTBR.OWN = 1 (10_state.md R32), and the offset
is that of an entry (20_memory.md R53, R54). -/
def tableAccess (s : State) (addr : Nat) : Except Fault Nat :=
  if s.ptbrOwn then
    if addr % 4 = 0 ∧ addr / 4 < s.numPtes.toNat then .ok (addr / 4) else .error .tableAddress
  else .error .tableNotOwned

/-- `MemRead(addr, 4)` (20_memory.md R53). No side effect. -/
def memRead (s : State) (addr : Nat) : Except Fault Word :=
  match tableAccess s addr with
  | .ok i => .ok (s.entry i)
  | .error f => .error f

/-- `MemWrite(addr, 4, v)` (20_memory.md R54). -/
def memWrite (s : State) (addr : Nat) (v : Word) : Except Fault State :=
  match tableAccess s addr with
  | .ok i => .ok { s with tbl := s.tbl.write s.numPtes.toNat i v }
  | .error f => .error f

/-- How a PTE word would lie in four bytes, lowest offset first, under PTE_BYTE_ORDER (00_scope.md R9). No operation calls it:
the byte order is unobservable (20_memory.md R51). -/
def pteBytes (o : ByteOrder) (e : Word) : List (BitVec 8) :=
  match o with
  | .little => [e.extractLsb' 0 8, e.extractLsb' 8 8, e.extractLsb' 16 8, e.extractLsb' 24 8]
  | .big => [e.extractLsb' 24 8, e.extractLsb' 16 8, e.extractLsb' 8 8, e.extractLsb' 0 8]

/-! ### Register writes -/

/-- PHASE <- p. -/
def State.setPhase (s : State) (p : Phase) : State := { s with phase := p }

/-- ALLOC's writes on success: NUM_PTES, PTBR.OWN, every entry of TBL zero, PHASE (41_table_alloc_init.md R130, R132). -/
def State.allocateTable (s : State) (n : Nat) : State :=
  { s with numPtes := BitVec.ofNat 33 n, ptbrOwn := true, tbl := Memory.zeroed, phase := .allocated }

/-- INIT's writes: the lower half of TBL, PHASE (41_table_alloc_init.md R134). -/
def State.fillTable (s : State) : State :=
  { s with tbl := s.tbl.fillLower s.numPtes.toNat, phase := .ready }

/-! ### Inputs from the requester -/

/-- Take the next input off the front: what remains is `rest`. -/
def State.withInputs (s : State) (rest : List HostInput) : State := { s with inputs := rest }

/-- Reset (70_reset_and_hazards.md R240, R241): every element to its reset value, the table released, no response, no trace.
The parameters and what the requester has yet to present are not the instance's to reset (log 2, log 3, log 4). -/
def hardwareReset (s : State) : State := { State.reset with params := s.params, inputs := s.inputs }

/-- The answer to an illegal command word: IllegalCommand in every phase, nothing else changes (60_exceptions.md R206;
30_encoding.md R89). -/
def execIllegal (s : State) : Result := raise .illegalCommand s

end Machine
end Sys2Proof
end

