-- ==== Sys2Proof/Machine/Geometry.lean ====
section
/-! DEFINITION. The Geometry Calculator: the operation LAYOUT (40_geometry.md R110 to R118). -/

namespace Sys2Proof
namespace Machine

/-- The layout bundle, the five layout constants the Geometry Calculator hands to the Translator (30_encoding.md R99). -/
structure LayoutConstants where
  pageSizeBits : BitVec 4
  vpnMask : Word
  shift : BitVec 4
  pfnShift : BitVec 4
  offsetMask : Word
  deriving DecidableEq, Repr

/-- `compute_layout` on the page-size exponent `k` in 0 .. 12, the document's formulas (40_geometry.md R112, R113, R114). The
address width does not enter it. -/
def computeLayout (k : Fin 13) : LayoutConstants :=
  { pageSizeBits := BitVec.ofNat 4 k.val
    offsetMask := lshr (0xFFFFFFFF : Word) (32 - k.val)
    vpnMask := shl (lshr (0xFFFFFFFF : Word) k.val) k.val
    shift := BitVec.ofNat 4 k.val
    pfnShift := BitVec.ofNat 4 k.val }

/-- LAYOUT's writes on success: the seven registers and PHASE (40_geometry.md R110). -/
def State.latchLayout (s : State) (asb16 ps16 : BitVec 16) (l : LayoutConstants) : State :=
  { s with
    asb := asb16.setWidth 6
    ps := ps16.setWidth 13
    psb := l.pageSizeBits
    vpnMask := l.vpnMask
    shift := l.shift
    pfnShift := l.pfnShift
    offsetMask := l.offsetMask
    phase := .laidOut }

/-- LAYOUT asb16, ps16 (40_geometry.md R110): phase check, validation, derivation, latch. -/
def execLayout (asb16 ps16 : BitVec 16) (s : State) : Result :=
  if s.phase = .reset then
    match configExponent asb16 ps16 with
    | none => raise .invalidConfiguration s
    | some k => respond .ok 0 (s.latchLayout asb16 ps16 (computeLayout k))
  else raise .badSequence s

end Machine
end Sys2Proof
end

