-- ==== Sys2Proof/Machine/TableInit.lean ====
section
/-! DEFINITION. The page-table allocator and initializer: the operations ALLOC and INIT (41_table_alloc_init.md R130 to R141),
and beside them the spec's word-by-word loops, against which the one-update meanings are stated to agree. -/

namespace Sys2Proof
namespace Machine

/-- ALLOC (41_table_alloc_init.md R130): phase check, entry count, capacity, then the zeroed table. On AllocFailure only PHASE
is written (R133). ASB < PSB, which cannot arise (R131), has no count: a fault (log 9). -/
def execAlloc (s : State) : Result :=
  if s.phase = .laidOut then
    if s.psb.toNat ≤ s.asb.toNat then
      if s.params.tableCap.toNat < entryCount s.asb.toNat s.psb.toNat then
        raise .allocFailure (s.setPhase .failed)
      else respond .ok 0 (s.allocateTable (entryCount s.asb.toNat s.psb.toNat))
    else .fault .noEntryCount
  else raise .badSequence s

/-- INIT (41_table_alloc_init.md R134): phase check, then the pattern in the lower half. A state with PTBR.OWN = 0 in phase
ALLOCATED, which no run reaches, has no table to fill: a fault (log 6). -/
def execInit (s : State) : Result :=
  if s.phase = .allocated then
    if s.ptbrOwn then respond .ok 0 s.fillTable else .fault .tableNotOwned
  else raise .badSequence s

/-! ### The loops of the spec's pseudocode, one MemWrite a word -/

/-- `for i in 0 .. k - 1: MemWrite(PTBR.BASE + 4*i, 4, word i)` (41_table_alloc_init.md R130, R134). -/
def writeLoop (word : Nat → Word) : Nat → State → Except Fault State
  | 0, s => .ok s
  | k + 1, s =>
    match writeLoop word k s with
    | .ok t => memWrite t (pteOffset k) (word k)
    | .error f => .error f

/-- What follows a loop: its fault, or the rest of the operation. -/
def afterLoop (r : Except Fault State) (k : State → Result) : Result :=
  match r with
  | .ok t => k t
  | .error f => .fault f

/-- ALLOC line by line as R130 writes it, its zero fill a loop. -/
def execAllocLoop (s : State) : Result :=
  if s.phase = .laidOut then
    if s.psb.toNat ≤ s.asb.toNat then
      if s.params.tableCap.toNat < entryCount s.asb.toNat s.psb.toNat then
        respond .allocFailure 0 (s.setPhase .failed)
      else
        afterLoop
          (writeLoop (fun _ => 0) (entryCount s.asb.toNat s.psb.toNat)
            { s with numPtes := BitVec.ofNat 33 (entryCount s.asb.toNat s.psb.toNat), ptbrOwn := true })
          (fun t => respond .ok 0 (t.setPhase .allocated))
    else .fault .noEntryCount
  else raise .badSequence s

/-- INIT line by line as R134 writes it. -/
def execInitLoop (s : State) : Result :=
  if s.phase = .allocated then
    afterLoop (writeLoop initWord (s.numPtes.toNat / 2) s) (fun t => respond .ok 0 (t.setPhase .ready))
  else raise .badSequence s

end Machine
end Sys2Proof
end

