-- ==== Sys2Proof/Machine/Translate.lean ====
section
/-! DEFINITION. The Translator: the operation XLATE (42_translate.md R150 to R166). -/

namespace Sys2Proof
namespace Machine

/-- XLATE after the fetch: trace, then the decision over VALID and ACCESS, then the physical address (42_translate.md R150,
R155, R156, R158, R160). -/
def finishXlate (va vpn e : Word) (s : State) : Result :=
  match permission e with
  | .ok => respond .ok (physicalAddress s (ptePfn e) va) (s.emitTrace (traceEntry vpn e))
  | st => raise st (s.emitTrace (traceEntry vpn e))

/-- XLATE from the VPN on: the 33-bit bound check before any table access, then the fetch (42_translate.md R153, R154). -/
def lookupXlate (va vpn : Word) (s : State) : Result :=
  if s.numPtes ≤ vpn.setWidth 33 then raise .outOfRange (s.emitTrace (traceNoEntry vpn))
  else
    match memRead s (pteOffset vpn.toNat) with
    | .ok e => finishXlate va vpn e s
    | .error f => .fault f

/-- XLATE va (42_translate.md R150). -/
def execXlate (va : Word) (s : State) : Result :=
  if s.phase = .ready then lookupXlate va (extractVpn s va) s
  else raise .badSequence s

end Machine
end Sys2Proof
end

