-- ==== Sys2Proof/Machine/Dispatch.lean ====
section
/-! DEFINITION. One arm per constructor of Instr (30_encoding.md R84). -/

namespace Sys2Proof
namespace Machine

/-- The meaning of a decoded command (30_encoding.md R83, R84). -/
def exec (i : Instr) (s : State) : Host.Outcome State Fault Refusal :=
  match i with
  | .layout asb16 ps16 => Sys2Proof.Machine.execLayout asb16 ps16 s
  | .alloc => Sys2Proof.Machine.execAlloc s
  | .init => Sys2Proof.Machine.execInit s
  | .xlate va => Sys2Proof.Machine.execXlate va s

end Machine
end Sys2Proof
end

