-- ==== Sys2Proof/Machine/Step.lean ====
section
/-! DEFINITION. One step: the instance takes the next thing the requester presents (30_encoding.md R80, R82; 70_reset_and_hazards.md
R240, R253). -/

namespace Sys2Proof
namespace Machine

/-- Decode one command word and run it; an illegal word is answered IllegalCommand (30_encoding.md R82, R89). -/
def runCommand (w : CommandWord) (s : State) : Host.Outcome State Fault Refusal :=
  match decode w with
  | .ok i => exec i s
  | .error _ => execIllegal s

/-- One step. With nothing presented the instance stays as it is (70_reset_and_hazards.md R253); a reset is R240; a command is one
atomic operation (00_scope.md R14). -/
def step (s : State) : Host.Outcome State Fault Refusal :=
  match s.inputs with
  | [] => .next s
  | .reset :: rest => .next (hardwareReset (s.withInputs rest))
  | .command w :: rest => runCommand w (s.withInputs rest)

/-- The state in which the requester presents, next, the command word of the low `nbits` bits of `w` (log 1, log 18). -/
def State.withFetchWord (s : State) (nbits w : Nat) : State :=
  s.withInputs (.command (commandWord nbits w) :: s.inputs)

end Machine
end Sys2Proof
end

