-- ==== Sys2Proof/Machine/Construct.lean ====
section
/-! DEFINITION. The pseudo-operation CONSTRUCT, which the requester carries out (30_encoding.md R96; log 16). -/

namespace Sys2Proof
namespace Machine

/-- "stop here if the response is not OK": go on with `k` from a next state whose last response is OK. -/
def continueIfOk (r : Result) (k : State → Result) : Result :=
  match r with
  | .next t => if t.responses.getLast?.map respStatus = some (statusCode .ok) then k t else .next t
  | .fault f => .fault f
  | .refused q => .refused q

/-- CONSTRUCT asb, page_size: LAYOUT, ALLOC, INIT, stopping at the first response that is not OK (30_encoding.md R96). osmmu
sees three separate commands. -/
def construct (asb16 ps16 : BitVec 16) (s : State) : Result :=
  continueIfOk (exec (.layout asb16 ps16) s) fun t => continueIfOk (exec .alloc t) fun u => exec .init u

end Machine
end Sys2Proof
end

