-- ==== Sys2Proof/Safety.lean ====
section
/-! DEFINITION. The terms statements about osmmu are written in: the invariant of every run, the parts of a state, and the spec's
own tables as functions. -/

namespace Sys2Proof
namespace Machine

/-- The range of TABLE_CAP (00_scope.md R9). -/
abbrev State.ParamsOk (s : State) : Prop := 1 ≤ s.params.tableCap.toNat ∧ s.params.tableCap.toNat ≤ 2 ^ 32

/-- The layout registers of a laid-out instance: the legal ranges of R24 to R30 and the equations of 10_state.md R34, the masks
by their values (R27, R30). -/
abbrev State.LayoutOk (s : State) : Prop :=
  (1 ≤ s.asb.toNat ∧ s.asb.toNat ≤ 32) ∧ (s.psb.toNat ≤ 12 ∧ s.psb.toNat ≤ s.asb.toNat)
    ∧ s.ps.toNat = 2 ^ s.psb.toNat ∧ (s.shift = s.psb ∧ s.pfnShift = s.psb)
    ∧ s.offsetMask.toNat = 2 ^ s.psb.toNat - 1 ∧ s.vpnMask.toNat = 2 ^ 32 - 2 ^ s.psb.toNat

/-- The entry count and the ownership of an instance that has a table (10_state.md R31, R33, R34; 20_memory.md R65). -/
abbrev State.TableOk (s : State) : Prop :=
  s.numPtes.toNat = 2 ^ (s.asb.toNat - s.psb.toNat) ∧ s.numPtes.toNat ≤ s.params.tableCap.toNat ∧ s.ptbrOwn = true

/-- A table exists exactly in the phases ALLOCATED and READY (10_state.md R23, R32). -/
abbrev Phase.hasTable (p : Phase) : Prop := p = .allocated ∨ p = .ready

/-- The invariant of every run (10_state.md R23, R32, R33, R34): parameters in range; layout registers good from LAID_OUT on;
a table exactly in ALLOCATED and READY, all zero in the first (R132), the init pattern in the second (R137). -/
abbrev State.Inv (s : State) : Prop :=
  s.ParamsOk
    ∧ (s.phase ≠ .reset → s.LayoutOk)
    ∧ (s.phase.hasTable → s.TableOk)
    ∧ (¬ s.phase.hasTable → s.ptbrOwn = false)
    ∧ s.tbl = { fill := if s.phase = .ready then .pattern else .zero, cells := [] }

/-- Every word on the response stream is a status of 30_encoding.md R91 with its data, and DATA = 0 unless the status is OK
(R90). -/
def State.ResponsesOk (s : State) : Prop :=
  ∀ rw ∈ s.responses, ∃ st data, rw = respWord st data ∧ (st ≠ .ok → data = 0)

/-- A state without its two streams, which are "observations, not state" (10_state.md R20). -/
def State.bare (s : State) : State := { s with responses := [], traces := [] }

/-- A state with other streams. -/
def State.withStreams (s : State) (rs : List ResponseWord) (ts : List TraceWord) : State :=
  { s with responses := rs, traces := ts }

/-- A state with another TRACE_EN and another trace stream. -/
def State.withTrace (s : State) (en : Bool) (ts : List TraceWord) : State :=
  { s with params := { s.params with traceEn := en }, traces := ts }

/-- The four conditions of 40_geometry.md R111, `k` the exponent of the page size. -/
abbrev ValidConfig (asb16 ps16 : BitVec 16) (k : Nat) : Prop :=
  (1 ≤ asb16.toNat ∧ asb16.toNat ≤ 32) ∧ (1 ≤ ps16.toNat ∧ ps16.toNat ≤ 4096) ∧ ps16.toNat = 2 ^ k ∧ k ≤ asb16.toNat

/-- The one phase in which an operation is allowed (60_exceptions.md R205). -/
def allowedPhase (i : Instr) : Phase :=
  match i with
  | .layout _ _ => .reset
  | .alloc => .laidOut
  | .init => .allocated
  | .xlate _ => .ready

/-- The phase transition table of 70_reset_and_hazards.md R243: the statuses a cell allows and the next phase. The row is `p`, the
column the decoded command, `valid` and `fits` choosing between the two columns of LAYOUT and of ALLOC. Off the one row
where a command is allowed (R205) its cells are BadSequence and the same phase. -/
def transitionCell (p : Phase) (valid fits : Bool) (c : Except DecodeError Instr) : List Status × Phase :=
  match c with
  | .error _ => ([.illegalCommand], p)
  | .ok i =>
    if p = allowedPhase i then
      match i with
      | .layout _ _ => if valid then ([.ok], .laidOut) else ([.invalidConfiguration], .reset)
      | .alloc => if fits then ([.ok], .allocated) else ([.allocFailure], .failed)
      | .init => ([.ok], .ready)
      | .xlate _ => ([.ok, .notValid, .notAccessible, .outOfRange], .ready)
    else ([.badSequence], p)

/-- Whether a decoded command's configuration is valid; true of commands without one (the "LAYOUT valid operands" column). -/
def commandValid (c : Except DecodeError Instr) : Bool :=
  match c with
  | .ok (.layout asb16 ps16) => validConfig asb16 ps16
  | _ => true

/-- The response a result ends with: the last word of its stream; none if it stopped. -/
def lastResponse (r : Result) : Option ResponseWord :=
  match r with
  | .next t => t.responses.getLast?
  | .fault _ => none
  | .refused _ => none

/-- XLATE of `va` completes with this status and data: a next state that differs from `s` in the two streams only, the response
stream one word longer (42_translate.md R150, R161). -/
def XlateAnswers (s : State) (va : Word) (st : Status) (data : Word) : Prop :=
  ∃ ts, exec (.xlate va) s = .next { s with responses := s.responses ++ [respWord st data], traces := ts }

/-- Run commands one after the other, in order (70_reset_and_hazards.md R253), stopping where one stops. -/
def execAll : List Instr → State → Result
  | [], s => .next s
  | i :: is, s =>
    match exec i s with
    | .next t => execAll is t
    | .fault f => .fault f
    | .refused q => .refused q

end Machine
end Sys2Proof
end

