-- ==== Sys2Proof/Certificates/Slice0/Obligations.lean ====
section
/-! DEFINITION. The statements about osmmu, from the numbered rules of spec/. Each docstring names its rules; a clause that rests
on a choice of the model names the log entry. -/

open Sys2Proof Sys2Proof.Machine

/-! ### Encoding and decoding (30_encoding.md) -/

/-- R81, R83, R86, R87: decoding an encoded instruction gives it back, for every instruction (each is well formed) and every
value of every operand. -/
def Obligations.EncodeThenDecode : Prop := ∀ i : Instr, i.wellFormed = true ∧ decode (encode i) = .ok i

/-- R81, R83, R85: a word that decodes is the word of what it decodes to, so no bit of a legal word is dropped. -/
def Obligations.DecodeThenEncode : Prop := ∀ (w : CommandWord) (i : Instr), decode w = .ok i → encode i = w

/-- R82, by arithmetic on the 40-bit number: OPC is w div 2^32 and ARG is w mod 2^32; ILLEGAL is answered IllegalCommand with
no state change, whatever the state. -/
def Obligations.DecodeByFields : Prop :=
  ∀ w : CommandWord,
    (w.toNat / 2 ^ 32 = 1 → decode w = .ok (.layout (BitVec.ofNat 16 (w.toNat / 2 ^ 16)) (BitVec.ofNat 16 w.toNat)))
    ∧ (w.toNat / 2 ^ 32 = 2 → w.toNat % 2 ^ 32 = 0 → decode w = .ok .alloc)
    ∧ (w.toNat / 2 ^ 32 = 3 → w.toNat % 2 ^ 32 = 0 → decode w = .ok .init)
    ∧ (w.toNat / 2 ^ 32 = 4 → decode w = .ok (.xlate (BitVec.ofNat 32 w.toNat)))
    ∧ ((w.toNat / 2 ^ 32 = 0 ∨ 4 < w.toNat / 2 ^ 32
          ∨ ((w.toNat / 2 ^ 32 = 2 ∨ w.toNat / 2 ^ 32 = 3) ∧ w.toNat % 2 ^ 32 ≠ 0)) →
        (∃ e, decode w = .error e)
        ∧ ∀ s : State, runCommand w s = .next { s with responses := s.responses ++ [0x0700000000] })

/-- R206: in every phase an illegal word is answered IllegalCommand and changes nothing. -/
def Obligations.IllegalWordChangesNothing : Prop :=
  ∀ (s : State) (w : CommandWord) (rest : List HostInput) (e : DecodeError),
    s.inputs = .command w :: rest → decode w = .error e →
      step s = .next { s with inputs := rest, responses := s.responses ++ [0x0700000000] }

/-- 30_encoding.md section 9 (worked encodings): one word of each operation, and two illegal words. The spec says only ILLEGAL of
the last two: the two refusal names are the model's (DESIGN CHOICE, log 17). -/
def Obligations.WorkedEncodingsDecode : Prop :=
  decode 0x0100201000 = .ok (.layout 32 4096) ∧ decode 0x0200000000 = .ok .alloc
    ∧ decode 0x0300000000 = .ok .init ∧ decode 0x0400001000 = .ok (.xlate 0x00001000)
    ∧ decode 0x0000000000 = .error (.unknownOpcode 0) ∧ decode 0x0200000001 = .error (.operandNotZero 2)

/-- R90, R91: a response word is STATUS * 2^32 + DATA, both fields read back, and the eight STATUS numbers are those of R91. -/
def Obligations.ResponseWordFields : Prop :=
  (∀ (st : Status) (data : Word),
    (respWord st data).toNat = (statusCode st).toNat * 2 ^ 32 + data.toNat
    ∧ respStatus (respWord st data) = statusCode st ∧ respData (respWord st data) = data
    ∧ ∀ (st' : Status) (data' : Word), respWord st data = respWord st' data' → st = st' ∧ data = data')
  ∧ statusCode .ok = 0x00 ∧ statusCode .notValid = 0x01 ∧ statusCode .notAccessible = 0x02
  ∧ statusCode .outOfRange = 0x03 ∧ statusCode .invalidConfiguration = 0x04 ∧ statusCode .allocFailure = 0x05
  ∧ statusCode .badSequence = 0x06 ∧ statusCode .illegalCommand = 0x07

/-- R94: the record of a read entry is VPN * 2^32 + (entry & 0xFFFFF003), that of an out-of-range VPN is VPN * 2^32 + 4. -/
def Obligations.TraceRecordFields : Prop :=
  ∀ vpn e : Word,
    (traceEntry vpn e).toNat = vpn.toNat * 2 ^ 32 + (e &&& 0xFFFFF003).toNat
    ∧ (traceNoEntry vpn).toNat = vpn.toNat * 2 ^ 32 + 4

/-! ### Steps, responses and reset -/

/-- R80, R82: where the word presented next decodes to `i`, a step is `exec i` on the state with that word taken off the
inputs, and nothing around it. The inputs list is the model's (log 1), and so is what a step does with nothing presented:
it changes nothing (R253, "the instance simply stays in its phase"). -/
def Obligations.StepRunsDecodedCommand : Prop :=
  (∀ (s : State) (w : CommandWord) (rest : List HostInput) (i : Instr),
    s.inputs = .command w :: rest → decode w = .ok i → step s = exec i { s with inputs := rest })
  ∧ ∀ s : State, s.inputs = [] → step s = .next s

/-- R240, R241, R39: reset from any state leaves PHASE = RESET, PTBR.OWN = 0, no table, empty streams, and is the release of
the table. That the parameters stay (log 4), that the later inputs stay (log 1), and that a table access then stops as
tableNotOwned (DEDUCED, log 6) is the model's. -/
def Obligations.ResetReleasesTable : Prop :=
  ∀ (s : State) (rest : List HostInput), s.inputs = .reset :: rest →
    ∃ t, step s = .next t ∧ t.phase = .reset ∧ t.ptbrOwn = false ∧ t.tbl = Memory.zeroed
      ∧ t.responses = [] ∧ t.traces = [] ∧ t.params = s.params ∧ t.inputs = rest
      ∧ ∀ addr, memRead t addr = .error .tableNotOwned

/-- R39: the values the spec gives at reset, and the five codes of PHASE (R23). (That nothing is presented yet is log 1.) -/
def Obligations.ResetValues : Prop :=
  State.reset.phase = .reset ∧ phaseCode State.reset.phase = 0 ∧ State.reset.ptbrOwn = false ∧ ptbrBase = 0
    ∧ State.reset.tbl = Memory.zeroed ∧ State.reset.responses = [] ∧ State.reset.traces = []
    ∧ State.reset.inputs = []
    ∧ phaseCode .laidOut = 1 ∧ phaseCode .allocated = 2 ∧ phaseCode .ready = 3 ∧ phaseCode .failed = 4

/-- R80, R90: every accepted command word, legal or not, adds exactly one response; DATA is 0 unless the command is XLATE
and the status OK. -/
def Obligations.OneResponsePerCommand : Prop :=
  ∀ (s t : State) (w : CommandWord) (rest : List HostInput),
    s.inputs = .command w :: rest → step s = .next t →
      t.inputs = rest ∧ ∃ st data, t.responses = s.responses ++ [respWord st data]
        ∧ (data ≠ 0 → st = .ok ∧ ∃ va, decode w = .ok (.xlate va))

/-- R90, R91: every step keeps the response stream made of statuses 0x00 .. 0x07, with DATA = 0 unless the status is OK. -/
def Obligations.StepKeepsResponsesLegal : Prop :=
  ∀ s t : State, s.ResponsesOk → step s = .next t →
    t.ResponsesOk ∧ ∀ rw ∈ t.responses, respStatus rw ≤ 0x07 ∧ (respStatus rw ≠ 0 → respData rw = 0)

/-! ### LAYOUT (40_geometry.md) -/

/-- R110: LAYOUT in every phase and on every operand, with the values it writes and its command word; R111 is the
condition. -/
def Obligations.LayoutOutcome : Prop :=
  ∀ (s : State) (a p : BitVec 16),
    (s.phase ≠ .reset → exec (.layout a p) s = .next (s.pushResponse (respWord .badSequence 0)))
    ∧ (s.phase = .reset → (¬ ∃ k, ValidConfig a p k) →
        exec (.layout a p) s = .next (s.pushResponse (respWord .invalidConfiguration 0)))
    ∧ (∀ k, s.phase = .reset → ValidConfig a p k →
        exec (.layout a p) s = .next
          { s with
            asb := BitVec.ofNat 6 a.toNat
            ps := BitVec.ofNat 13 p.toNat
            psb := BitVec.ofNat 4 k
            vpnMask := BitVec.ofNat 32 (2 ^ 32 - 2 ^ k)
            shift := BitVec.ofNat 4 k
            pfnShift := BitVec.ofNat 4 k
            offsetMask := BitVec.ofNat 32 (2 ^ k - 1)
            phase := .laidOut
            responses := s.responses ++ [respWord .ok 0] })
    ∧ (encode (.layout a p)).toNat = 1 * 2 ^ 32 + a.toNat * 2 ^ 16 + p.toNat

/-- R111: the model's check is the four conditions, and where they fail LAYOUT in RESET answers InvalidConfiguration. -/
def Obligations.ValidationIsFourConditions : Prop :=
  ∀ a p : BitVec 16,
    (validConfig a p = true ↔
      (1 ≤ a.toNat ∧ a.toNat ≤ 32) ∧ (1 ≤ p.toNat ∧ p.toNat ≤ 4096) ∧ ∃ k, p.toNat = 2 ^ k ∧ k ≤ a.toNat)
    ∧ (validConfig a p = false → ∀ s : State, s.phase = .reset →
        exec (.layout a p) s = .next { s with responses := s.responses ++ [respWord .invalidConfiguration 0] })

/-- R116: the masks LAYOUT writes are disjoint, cover all 32 bits, and split every address. -/
def Obligations.LayoutMasksSplitAddresses : Prop :=
  ∀ (s : State) (a p : BitVec 16) (k : Nat), s.phase = .reset → ValidConfig a p k →
    ∃ t, exec (.layout a p) s = .next t
      ∧ t.vpnMask &&& t.offsetMask = 0 ∧ t.vpnMask ||| t.offsetMask = 0xFFFFFFFF
      ∧ ∀ v : Word, (v &&& t.vpnMask) ||| (v &&& t.offsetMask) = v

/-- R117: the five constants are a function of the page size alone, in every run and instance. -/
def Obligations.LayoutDependsOnPageSizeOnly : Prop :=
  ∀ (s s' : State) (a a' p : BitVec 16) (k : Nat),
    s.phase = .reset → s'.phase = .reset → ValidConfig a p k → ValidConfig a' p k →
      ∃ t t', exec (.layout a p) s = .next t ∧ exec (.layout a' p) s' = .next t'
        ∧ t.psb = t'.psb ∧ t.vpnMask = t'.vpnMask ∧ t.shift = t'.shift ∧ t.pfnShift = t'.pfnShift
        ∧ t.offsetMask = t'.offsetMask

/-- R114: page size 1, where the offset mask asks for a shift by 32. -/
def Obligations.PageSizeOneLayout : Prop :=
  lshr (0xFFFFFFFF : Word) 32 = 0
    ∧ ∀ (s : State) (a : BitVec 16), s.phase = .reset → 1 ≤ a.toNat → a.toNat ≤ 32 →
        ∃ t, exec (.layout a 1) s = .next t ∧ t.psb = 0 ∧ t.offsetMask = 0 ∧ t.vpnMask = 0xFFFFFFFF
          ∧ t.shift = 0 ∧ t.pfnShift = 0

/-- 40_geometry.md R110: what LAYOUT leaves unchanged, whatever it answers: NUM_PTES, PTBR, the table (every access reads as
before), the parameters, the inputs and the trace stream. -/
def Obligations.LayoutFrame : Prop :=
  ∀ (s t : State) (a p : BitVec 16), exec (.layout a p) s = .next t →
    t.numPtes = s.numPtes ∧ t.ptbrOwn = s.ptbrOwn ∧ t.tbl = s.tbl ∧ t.params = s.params
    ∧ t.inputs = s.inputs ∧ t.traces = s.traces ∧ ∀ addr, memRead t addr = memRead s addr

/-! ### ALLOC and INIT (41_table_alloc_init.md) -/

/-- R130, R131: ALLOC in every phase, with the values it writes and its command word. PSB ≤ ASB is what R131 says LAYOUT
has assured. -/
def Obligations.AllocOutcome : Prop :=
  ∀ s : State,
    (s.phase ≠ .laidOut → exec .alloc s = .next (s.pushResponse (respWord .badSequence 0)))
    ∧ (s.phase = .laidOut → s.psb.toNat ≤ s.asb.toNat →
        s.params.tableCap.toNat < 2 ^ (s.asb.toNat - s.psb.toNat) →
        exec .alloc s = .next
          { s with phase := .failed, responses := s.responses ++ [respWord .allocFailure 0] })
    ∧ (s.phase = .laidOut → s.psb.toNat ≤ s.asb.toNat →
        2 ^ (s.asb.toNat - s.psb.toNat) ≤ s.params.tableCap.toNat →
        exec .alloc s = .next
          { s with
            numPtes := BitVec.ofNat 33 (2 ^ (s.asb.toNat - s.psb.toNat))
            ptbrOwn := true
            tbl := Memory.zeroed
            phase := .allocated
            responses := s.responses ++ [respWord .ok 0] })
    ∧ (∀ n i, Memory.zeroed.read n i = 0) ∧ (encode .alloc).toNat = 2 * 2 ^ 32

/-- R132: after ALLOC responds OK every entry is zero, hence invalid. -/
def Obligations.AllocZeroFills : Prop :=
  ∀ s t : State, s.phase = .laidOut → exec .alloc s = .next t → t.responses = s.responses ++ [respWord .ok 0] →
    t.phase = .allocated ∧ ∀ i < t.numPtes.toNat,
      memRead t (4 * i) = .ok 0 ∧ t.entry i = 0 ∧ pteValid (t.entry i) = 0

/-- R131, R184: the count is exact in 33 bits, between 1 and 2^32, never wrapped. -/
def Obligations.EntryCountExact : Prop :=
  ∀ s : State, s.Inv → s.phase = .laidOut → 2 ^ (s.asb.toNat - s.psb.toNat) ≤ s.params.tableCap.toNat →
    ∃ t, exec .alloc s = .next t ∧ t.numPtes.toNat = 2 ^ (s.asb.toNat - s.psb.toNat)
      ∧ 1 ≤ t.numPtes.toNat ∧ t.numPtes.toNat ≤ 2 ^ 32

/-- R133: a count above TABLE_CAP fails cleanly (no entry, no ownership, no count), and FAILED answers every legal command
BadSequence and stays. That a table access then stops as tableNotOwned is the model's (DEDUCED, log 6). -/
def Obligations.AllocFailureIsTerminal : Prop :=
  (∀ s : State, s.Inv → s.phase = .laidOut → s.params.tableCap.toNat < 2 ^ (s.asb.toNat - s.psb.toNat) →
    ∃ t, exec .alloc s = .next t ∧ t.phase = .failed ∧ t.responses = s.responses ++ [respWord .allocFailure 0]
      ∧ t.ptbrOwn = false ∧ t.numPtes = s.numPtes ∧ t.tbl = s.tbl ∧ ∀ addr, memRead t addr = .error .tableNotOwned)
  ∧ ∀ (s : State) (i : Instr), s.phase = .failed →
      exec i s = .next { s with responses := s.responses ++ [respWord .badSequence 0] }

/-- 41_table_alloc_init.md R130: what ALLOC leaves unchanged. Unless it responds OK, NUM_PTES, PTBR and every table access
too. That a table access off the entries ALLOC zeroes stops as tableAddress is the model's (DEDUCED, log 8). -/
def Obligations.AllocFrame : Prop :=
  ∀ s t : State, exec .alloc s = .next t →
    (t.asb = s.asb ∧ t.ps = s.ps ∧ t.psb = s.psb ∧ t.vpnMask = s.vpnMask ∧ t.shift = s.shift
      ∧ t.pfnShift = s.pfnShift ∧ t.offsetMask = s.offsetMask)
    ∧ t.params = s.params ∧ t.inputs = s.inputs ∧ t.traces = s.traces
    ∧ (t.responses ≠ s.responses ++ [respWord .ok 0] →
        t.numPtes = s.numPtes ∧ t.ptbrOwn = s.ptbrOwn ∧ t.tbl = s.tbl ∧ ∀ addr, memRead t addr = memRead s addr)
    ∧ (t.responses = s.responses ++ [respWord .ok 0] →
        ∀ addr, (∀ i < t.numPtes.toNat, addr ≠ pteOffset i) → memRead t addr = .error .tableAddress)

/-- R130: the one-update ALLOC agrees with the spec's loop of MemWrites: the same outcome, the same registers and streams,
and the same word at every index of the table (log 10). -/
def Obligations.AllocMatchesLoop : Prop :=
  ∀ s : State, s.tbl.wf s.numPtes.toNat →
    (∀ t, exec .alloc s = .next t →
      ∃ u, execAllocLoop s = .next u ∧ { u with tbl := t.tbl } = t ∧ ∀ i < t.numPtes.toNat, u.entry i = t.entry i)
    ∧ ∀ f, exec .alloc s = .fault f → execAllocLoop s = .fault f

/-- R134: INIT in every phase. In ALLOCATED it writes the entries below NUM_PTES div 2 and PHASE, nothing else, and the
entries not written stay zero. -/
def Obligations.InitOutcome : Prop :=
  ∀ s : State,
    (s.phase ≠ .allocated → exec .init s = .next (s.pushResponse (respWord .badSequence 0)))
    ∧ (s.phase = .allocated → s.ptbrOwn = true →
        ∃ m, exec .init s = .next
            { s with tbl := m, phase := .ready, responses := s.responses ++ [respWord .ok 0] }
          ∧ ∀ i < s.numPtes.toNat, m.read s.numPtes.toNat i =
              if i < s.numPtes.toNat / 2 then
                (BitVec.ofNat 32 (2 * i % 2 ^ 20) <<< 12) ||| (if i % 4 = 0 then 0x1 else 0x3)
              else s.entry i)
    ∧ (s.Inv → s.phase = .allocated → ∃ t, exec .init s = .next t
        ∧ ∀ i < t.numPtes.toNat, t.numPtes.toNat / 2 ≤ i → t.entry i = 0)
    ∧ (encode .init).toNat = 3 * 2 ^ 32

/-- The closed form of the table INIT leaves, which depends on NUM_PTES only: 41_table_alloc_init.md section 2, the spec's own
inference "Closed form of the initialized table" (R137, marked derived there). -/
def Obligations.InitializedTable : Prop :=
  ∀ s : State, s.Inv → s.phase = .allocated →
    ∃ t, exec .init s = .next t ∧ t.phase = .ready ∧ t.numPtes = s.numPtes
      ∧ (∀ i < t.numPtes.toNat,
          (t.numPtes.toNat / 2 ≤ i → t.entry i = 0x00000000)
          ∧ (i < t.numPtes.toNat / 2 → i % 4 = 0 → (t.entry i).toNat = (2 * i) % 2 ^ 20 * 2 ^ 12 + 0x1)
          ∧ (i < t.numPtes.toNat / 2 → i % 4 ≠ 0 → (t.entry i).toNat = (2 * i) % 2 ^ 20 * 2 ^ 12 + 0x3))
      ∧ ∀ s' t' : State, s'.Inv → s'.phase = .allocated → s'.numPtes = s.numPtes → exec .init s' = .next t' →
          ∀ i < t.numPtes.toNat, t'.entry i = t.entry i

/-- 41_table_alloc_init.md R134, R138: what INIT leaves unchanged: every register but PHASE, and every table access outside
the offsets it stores to; outside ALLOCATED every table access. -/
def Obligations.InitFrame : Prop :=
  ∀ s t : State, exec .init s = .next t →
    (t.asb = s.asb ∧ t.ps = s.ps ∧ t.psb = s.psb ∧ t.vpnMask = s.vpnMask ∧ t.shift = s.shift
      ∧ t.pfnShift = s.pfnShift ∧ t.offsetMask = s.offsetMask)
    ∧ (t.numPtes = s.numPtes ∧ t.ptbrOwn = s.ptbrOwn)
    ∧ t.params = s.params ∧ t.inputs = s.inputs ∧ t.traces = s.traces
    ∧ (∀ addr, (∀ i < s.numPtes.toNat / 2, addr ≠ pteOffset i) → memRead t addr = memRead s addr)
    ∧ (s.phase ≠ .allocated → t.phase = s.phase ∧ t.tbl = s.tbl ∧ ∀ addr, memRead t addr = memRead s addr)

/-- R134: the one-update INIT agrees with the spec's loop of MemWrites: the same registers and streams, and the same word at
every index of the table (log 10). -/
def Obligations.InitMatchesLoop : Prop :=
  ∀ s t : State, s.tbl.wf s.numPtes.toNat → exec .init s = .next t →
    ∃ u, execInitLoop s = .next u ∧ { u with tbl := t.tbl } = t ∧ ∀ i < t.numPtes.toNat, u.entry i = t.entry i

/-- 41_table_alloc_init.md section 2 (R136): where 2*i fits 20 bits it is stored whole, else its low 20 bits are; that the
filled half of a larger table repeats with period 2^19 is the spec's own inference there ("Consequence [derived]"). -/
def Obligations.FrameFieldWraps : Prop :=
  ∀ s : State, s.Inv → s.phase = .ready →
    (∀ i < s.numPtes.toNat / 2, (ptePfn (s.entry i)).toNat = (2 * i) % 2 ^ 20)
    ∧ (s.numPtes.toNat ≤ 2 ^ 20 → ∀ i < s.numPtes.toNat / 2, (ptePfn (s.entry i)).toNat = 2 * i)
    ∧ ∀ i, i + 2 ^ 19 < s.numPtes.toNat / 2 → s.entry (i + 2 ^ 19) = s.entry i

/-- R139: a one-entry table is invalid throughout; a two-entry table has only TBL[0] filled. -/
def Obligations.OneEntryTable : Prop :=
  ∀ s : State, s.Inv → s.phase = .ready →
    (s.numPtes = 1 → s.entry 0 = 0x00000000 ∧ ∀ va : Word,
      (extractVpn s va = 0 → XlateAnswers s va .notValid 0) ∧ (extractVpn s va ≠ 0 → XlateAnswers s va .outOfRange 0))
    ∧ (s.numPtes = 2 → s.entry 0 = 0x00000001 ∧ s.entry 1 = 0x00000000)

/-! ### XLATE (42_translate.md) -/

/-- R150: XLATE in every phase, on every address and every table word (also words INIT never writes, T111), with the
document's formulas; the trace stream with it. -/
def Obligations.XlateOutcome : Prop :=
  ∀ (s : State) (va vpn e : Word), vpn = (va &&& s.vpnMask) >>> s.shift.toNat → e = s.entry vpn.toNat →
    (s.phase ≠ .ready → exec (.xlate va) s = .next (s.pushResponse (respWord .badSequence 0)))
    ∧ (s.phase = .ready → s.numPtes.toNat ≤ vpn.toNat →
        exec (.xlate va) s = .next ((s.emitTrace (traceNoEntry vpn)).pushResponse (respWord .outOfRange 0)))
    ∧ (s.phase = .ready → s.ptbrOwn = true → vpn.toNat < s.numPtes.toNat →
        (e.toNat % 2 = 0 →
          exec (.xlate va) s = .next ((s.emitTrace (traceEntry vpn e)).pushResponse (respWord .notValid 0)))
        ∧ (e.toNat % 4 = 1 →
          exec (.xlate va) s = .next ((s.emitTrace (traceEntry vpn e)).pushResponse (respWord .notAccessible 0)))
        ∧ (e.toNat % 4 = 3 →
          exec (.xlate va) s = .next ((s.emitTrace (traceEntry vpn e)).pushResponse
            (respWord .ok (((e >>> 12) <<< s.pfnShift.toNat) ||| (va &&& s.offsetMask))))))
    ∧ (encode (.xlate va)).toNat = 4 * 2 ^ 32 + va.toNat

/-- XLATE in phase READY as a function of ASB, PSB and the address alone: the spec's own inference "Closed form of XLATE in
phase READY" (42_translate.md section 6, R165, marked derived there). -/
def Obligations.XlateClosedForm : Prop :=
  ∀ (s : State) (va : Word) (k a n h vpn : Nat), s.Inv → s.phase = .ready →
    k = s.psb.toNat → a = s.asb.toNat → n = 2 ^ (a - k) → h = n / 2 → vpn = va.toNat / 2 ^ k →
      (2 ^ a ≤ va.toNat → XlateAnswers s va .outOfRange 0)
      ∧ (vpn < n → h ≤ vpn → XlateAnswers s va .notValid 0)
      ∧ (vpn < h → vpn % 4 = 0 → XlateAnswers s va .notAccessible 0)
      ∧ (vpn < h → vpn % 4 ≠ 0 →
          XlateAnswers s va .ok (BitVec.ofNat 32 ((2 * vpn) % 2 ^ 20 * 2 ^ k + va.toNat % 2 ^ k)))
      ∧ (va.toNat < 2 ^ a ↔ vpn < n) ∧ (a = 32 → va.toNat < 2 ^ a)

/-- 42_translate.md sections 2 and 3: the VPN is va div 2^PSB whatever ASB is, and it is out of range exactly from 2^ASB on
(R151, R152; both equations are the spec's own inferences there, marked derived). -/
def Obligations.OutOfRangeBeyondAddressSpace : Prop :=
  ∀ (s : State) (va : Word), s.LayoutOk → s.TableOk →
    (extractVpn s va).toNat = va.toNat / 2 ^ s.psb.toNat
    ∧ (s.numPtes.toNat ≤ (extractVpn s va).toNat ↔ 2 ^ s.asb.toNat ≤ va.toNat)
    ∧ (s.asb = 32 → (extractVpn s va).toNat < s.numPtes.toNat)

/-- 42_translate.md section 5: the physical address is pfn * 2^PSB + va mod 2^PSB: the shift loses nothing and the OR is a sum
(R157, R159; the spec's own inferences "No overflow and no overlap", marked derived). -/
def Obligations.ReconstructionIsSum : Prop :=
  ∀ (s : State) (e va : Word), s.LayoutOk →
    (ptePfn e).toNat * 2 ^ s.psb.toNat < 2 ^ 32
    ∧ (extractOffset s va).toNat = va.toNat % 2 ^ s.psb.toNat
    ∧ (physicalAddress s (ptePfn e) va).toNat = (ptePfn e).toNat * 2 ^ s.psb.toNat + va.toNat % 2 ^ s.psb.toNat

/-- R164, R93: XLATE does not look at bits [11:2] of an entry: two tables that agree on all other bits give the same
response and the same trace; in every READY table those bits are zero. -/
def Obligations.ReservedBitsIgnored : Prop :=
  (∀ (s t : State) (m : Memory) (va : Word),
    (∀ i, m.read s.numPtes.toNat i &&& 0xFFFFF003 = s.entry i &&& 0xFFFFF003) →
    exec (.xlate va) s = .next t → exec (.xlate va) { s with tbl := m } = .next { t with tbl := m })
  ∧ ∀ s : State, s.Inv → s.phase = .ready → ∀ i < s.numPtes.toNat, s.entry i &&& 0x00000FFC = 0

/-- R161: XLATE changes no state; a second XLATE of the same address answers the same; and in phase READY the response is a
function of the address and the configuration alone. -/
def Obligations.XlateIsPure : Prop :=
  (∀ (s t : State) (va : Word), exec (.xlate va) s = .next t →
    t.bare = s.bare ∧ ∃ r u, t.responses = s.responses ++ [r] ∧ exec (.xlate va) t = .next u
      ∧ u.responses = t.responses ++ [r] ∧ u.bare = s.bare)
  ∧ ∀ (s s' : State) (va : Word), s.Inv → s'.Inv → s.phase = .ready → s'.phase = .ready →
      s.asb = s'.asb → s.psb = s'.psb →
      ∃ st data, XlateAnswers s va st data ∧ XlateAnswers s' va st data

/-- R247: in a sequence of XLATEs each gets the response it would get alone, whatever the others answer. -/
def Obligations.TranslationsDoNotInteract : Prop :=
  ∀ (vas : List Word) (s : State), s.Inv → s.phase = .ready →
    ∃ t, execAll (vas.map .xlate) s = .next t ∧ t.bare = s.bare
      ∧ t.responses.map some = s.responses.map some ++ vas.map (fun va => lastResponse (exec (.xlate va) s))

/-- R160: which trace records a command emits. -/
def Obligations.TraceEmission : Prop :=
  ∀ (s t : State) (i : Instr), exec i s = .next t →
    ((∀ va, i ≠ .xlate va) → t.traces = s.traces)
    ∧ (s.phase ≠ .ready → t.traces = s.traces)
    ∧ (s.params.traceEn = false → t.traces = s.traces)
    ∧ ∀ va, i = .xlate va → s.phase = .ready → s.params.traceEn = true →
        ∃ tr, t.traces = s.traces ++ [tr] ∧ tr.toNat = (extractVpn s va).toNat * 2 ^ 32 +
          if (extractVpn s va).toNat < s.numPtes.toNat then (s.entry (extractVpn s va).toNat &&& 0xFFFFF003).toNat
          else 4

/-- R160 ("no rule reads it and no response depends on it"): with another TRACE_EN and another trace stream every command
does the same but for these two. -/
def Obligations.TraceDoesNotReachResponses : Prop :=
  ∀ (s t : State) (i : Instr) (en : Bool) (ts : List TraceWord), exec i s = .next t →
    ∃ ts', exec i (s.withTrace en ts) = .next (t.withTrace en ts')

/-- R162: page size 1. -/
def Obligations.PageSizeOneTranslation : Prop :=
  ∀ (s : State) (va : Word), s.Inv → s.phase = .ready → s.psb = 0 →
    extractVpn s va = va ∧ extractOffset s va = 0
    ∧ (va.toNat < s.numPtes.toNat / 2 → va.toNat % 4 ≠ 0 →
        XlateAnswers s va .ok ((ptePfn (s.entry va.toNat)).setWidth 32 <<< s.pfnShift.toNat)
        ∧ (ptePfn (s.entry va.toNat)).setWidth 32 <<< s.pfnShift.toNat = (ptePfn (s.entry va.toNat)).setWidth 32)

/-- 42_translate.md R150, R161: what XLATE leaves unchanged: everything but the two streams, every table access among it. -/
def Obligations.XlateFrame : Prop :=
  ∀ (s t : State) (va : Word), exec (.xlate va) s = .next t →
    t = { s with responses := t.responses, traces := t.traces }
    ∧ ∀ addr, memRead t addr = memRead s addr

/-! ### Phases and faults (60_exceptions.md, 70_reset_and_hazards.md) -/

/-- R205: out of its phase a command is answered BadSequence and changes nothing; in its phase it never is. -/
def Obligations.BadSequenceExactly : Prop :=
  ∀ (s : State) (i : Instr),
    (s.phase ≠ allowedPhase i →
      exec i s = .next { s with responses := s.responses ++ [respWord .badSequence 0] })
    ∧ (s.phase = allowedPhase i → ∀ t, exec i s = .next t →
        ∀ st data, t.responses = s.responses ++ [respWord st data] → st ≠ .badSequence)

/-- R243: the phase transition table, every cell, and reset. -/
def Obligations.PhaseTransitions : Prop :=
  (∀ (s : State) (w : CommandWord) (rest : List HostInput), s.Inv → s.inputs = .command w :: rest →
    ∃ t st data, step s = .next t ∧ t.responses = s.responses ++ [respWord st data]
      ∧ st ∈ (transitionCell s.phase (commandValid (decode w))
          (decide (2 ^ (s.asb.toNat - s.psb.toNat) ≤ s.params.tableCap.toNat)) (decode w)).1
      ∧ t.phase = (transitionCell s.phase (commandValid (decode w))
          (decide (2 ^ (s.asb.toNat - s.psb.toNat) ≤ s.params.tableCap.toNat)) (decode w)).2)
  ∧ ∀ (s : State) (rest : List HostInput), s.inputs = .reset :: rest → ∃ t, step s = .next t ∧ t.phase = .reset

/-- R200, R204, R207: a response other than OK carries DATA = 0 and comes with no state change, except that AllocFailure
sets PHASE to FAILED. -/
def Obligations.OnlyAllocFailureWritesState : Prop :=
  ∀ (s t : State) (i : Instr) (st : Status) (data : Word),
    exec i s = .next t → t.responses = s.responses ++ [respWord st data] → st ≠ .ok →
      data = 0 ∧ t.bare = (if st = .allocFailure then { s.bare with phase := .failed } else s.bare)

/-- R23: PHASE moves 0 → 1 → 2 → 3 or 1 → 4, or to 0 by reset; from every state, reached or not. -/
def Obligations.PhaseNeverMovesBack : Prop :=
  ∀ s t : State, step s = .next t →
    (s.inputs.head? = some .reset → t.phase = .reset)
    ∧ (s.inputs.head? ≠ some .reset →
        t.phase = s.phase ∨ (s.phase = .reset ∧ t.phase = .laidOut) ∨ (s.phase = .laidOut ∧ t.phase = .allocated)
        ∨ (s.phase = .laidOut ∧ t.phase = .failed) ∨ (s.phase = .allocated ∧ t.phase = .ready))

/-- R38: what a construction step wrote keeps its value until reset, and no fault and no rejected command changes any of
it. -/
def Obligations.ConstructedStateImmutable : Prop :=
  ∀ s t : State, step s = .next t → s.inputs.head? ≠ some .reset →
    (s.phase ≠ .reset →
      t.asb = s.asb ∧ t.ps = s.ps ∧ t.psb = s.psb ∧ t.vpnMask = s.vpnMask ∧ t.shift = s.shift
      ∧ t.pfnShift = s.pfnShift ∧ t.offsetMask = s.offsetMask)
    ∧ (s.phase = .allocated ∨ s.phase = .ready → t.numPtes = s.numPtes ∧ t.ptbrOwn = s.ptbrOwn)
    ∧ (s.phase = .ready → t.tbl = s.tbl ∧ ∀ i, t.entry i = s.entry i)
    ∧ ∀ st data, t.responses = s.responses ++ [respWord st data] → st ≠ .ok →
        { t.bare with phase := s.phase, inputs := s.inputs } = s.bare

/-- R210: after a fault (AllocFailure apart) the next command does what it would have done had the faulting one never been
sent, so that repeating the command gives the same fault. -/
def Obligations.FaultLeavesNextCommandAlone : Prop :=
  ∀ (s t u : State) (i j : Instr) (st : Status) (data : Word),
    exec i s = .next t → t.responses = s.responses ++ [respWord st data] → st ≠ .ok → st ≠ .allocFailure →
    exec j s = .next u →
      ∃ r ts, u.responses = s.responses ++ [r] ∧ exec j t = .next (u.withStreams (t.responses ++ [r]) ts)

/-- R32, R53, R131 (log 6, log 8, log 9): the three stops `exec` can make, each only where the spec performs no access; no
instruction is refused. -/
def Obligations.StopsNameTheirCause : Prop :=
  ∀ (s : State) (i : Instr),
    (exec i s = .fault .noEntryCount ↔ i = .alloc ∧ s.phase = .laidOut ∧ s.asb.toNat < s.psb.toNat)
    ∧ (exec i s = .fault .tableNotOwned ↔ s.ptbrOwn = false
        ∧ ((i = .init ∧ s.phase = .allocated)
          ∨ ∃ va, i = .xlate va ∧ s.phase = .ready ∧ (extractVpn s va).toNat < s.numPtes.toNat))
    ∧ exec i s ≠ .fault .tableAddress ∧ ∀ q, exec i s ≠ .refused q

/-- 30_encoding.md section 8 (R96) and 41_table_alloc_init.md section 1 (R130, R133), from phase RESET only: CONSTRUCT gives three
OK responses and READY; or InvalidConfiguration with nothing changed; or, above TABLE_CAP, AllocFailure and FAILED. The model's
are that CONSTRUCT is a function of the requester and no step (DEDUCED, log 16), and the form of the table in the invariant the
READY state meets (DESIGN CHOICE, log 5). -/
def Obligations.ConstructOutcome : Prop :=
  ∀ (s : State) (a p : BitVec 16), s.Inv → s.phase = .reset →
    (∀ k, ValidConfig a p k → 2 ^ (a.toNat - k) ≤ s.params.tableCap.toNat →
      ∃ t, construct a p s = .next t ∧ t.phase = .ready ∧ t.Inv
        ∧ t.asb.toNat = a.toNat ∧ t.psb.toNat = k
        ∧ t.responses = s.responses ++ [respWord .ok 0, respWord .ok 0, respWord .ok 0])
    ∧ ((¬ ∃ k, ValidConfig a p k) →
        construct a p s = .next { s with responses := s.responses ++ [respWord .invalidConfiguration 0] })
    ∧ ∀ k, ValidConfig a p k → s.params.tableCap.toNat < 2 ^ (a.toNat - k) →
        ∃ t, construct a p s = .next t ∧ t.phase = .failed ∧ t.ptbrOwn = false
          ∧ t.responses = s.responses ++ [respWord .ok 0, respWord .allocFailure 0]

/-! ### Invariants -/

/-- R23, R32, R34, R137, R9: every step keeps the invariant. How it holds the table (a fill, no cells) is log 5. -/
def Obligations.StepKeepsConstructionInvariant : Prop := ∀ s t : State, s.Inv → step s = .next t → t.Inv

/-- The state after reset meets the invariants the other statements assume (its parameters are log 4, its table's form log 5). -/
def Obligations.ResetMeetsInvariants : Prop :=
  State.reset.Inv ∧ State.reset.tbl.wf State.reset.numPtes.toNat ∧ State.reset.ResponsesOk

/-- R252: from a state of the invariant every step ends in a next state: no input, command or reset stops the machine. -/
def Obligations.StepNeverStops : Prop := ∀ s : State, s.Inv → ∃ t, step s = .next t

/-- R34: the invariants of the layout registers, in every state of the invariant with PHASE past RESET. -/
def Obligations.LayoutRegisterInvariants : Prop :=
  ∀ s : State, s.Inv → s.phase ≠ .reset →
    s.vpnMask ||| s.offsetMask = 0xFFFFFFFF ∧ s.vpnMask &&& s.offsetMask = 0
    ∧ s.shift = s.psb ∧ s.pfnShift = s.psb ∧ s.ps.toNat = 2 ^ s.psb.toNat ∧ s.psb.toNat ≤ s.asb.toNat
    ∧ (∀ v : Word, (v &&& s.vpnMask) ||| (v &&& s.offsetMask) = v)
    ∧ (s.phase = .allocated ∨ s.phase = .ready → s.numPtes.toNat = 2 ^ (s.asb.toNat - s.psb.toNat))

/-- The canonical form of the table memory (log 5) is kept by every step, from every state that has it. -/
def Obligations.StepKeepsTableCanonical : Prop :=
  ∀ s t : State, s.tbl.wf s.numPtes.toNat → step s = .next t → t.tbl.wf t.numPtes.toNat

/-- Two canonical tables of one size and fill that read alike are equal data (log 5). -/
def Obligations.CanonicalTablesEqual : Prop :=
  ∀ (m m' : Memory) (n : Nat), m.wf n → m'.wf n → m.fill = m'.fill → (∀ i < n, m.read n i = m'.read n i) → m = m'

/-- R53, R54: on the offset of an entry of an owned table MemWrite succeeds, the word written is read back, every other access
reads as before, and nothing but TBL changes. That it fails on every other access is the model's (DEDUCED, log 6 and log 8),
and so is the canonical form it keeps (DESIGN CHOICE, log 5). -/
def Obligations.TableWriteThenRead : Prop :=
  ∀ (s : State) (addr : Nat) (v : Word), s.tbl.wf s.numPtes.toNat →
    ((∃ t, memWrite s addr v = .ok t) ↔ s.ptbrOwn = true ∧ addr % 4 = 0 ∧ addr / 4 < s.numPtes.toNat)
    ∧ ∀ t, memWrite s addr v = .ok t →
        memRead t addr = .ok v ∧ (∀ b, b ≠ addr → memRead t b = memRead s b)
        ∧ { t with tbl := s.tbl } = s ∧ t.tbl.wf t.numPtes.toNat

/-- R9: no step changes a parameter. -/
def Obligations.ParametersNeverChange : Prop := ∀ s t : State, step s = .next t → t.params = s.params

/-! ### Arithmetic (43_arithmetic_laws.md) -/

/-- R181, R182: the shifts are division and multiplication by powers of two, 0 from the width on. -/
def Obligations.ShiftLaws : Prop :=
  ∀ (N : Nat) (a : BitVec N) (n : Nat),
    (lshr a n).toNat = a.toNat / 2 ^ n ∧ (shl a n).toNat = a.toNat * 2 ^ n % 2 ^ N
    ∧ (N ≤ n → lshr a n = 0 ∧ shl a n = 0)

/-- R183: the logarithm is exact on the legal page sizes. Within 1 .. 4096 it has no value exactly off the powers of two, and on
no number that is no power of two has it a value: the spec never evaluates it there, and `none` is the model's word for it
(DEDUCED, log 20). Nothing is said of the powers of two above 4096. -/
def Obligations.LogarithmIsExact : Prop :=
  ∀ p : Nat,
    (∀ k : Fin 13, log2Exact p = some k ↔ p = 2 ^ k.val)
    ∧ (1 ≤ p → p ≤ 4096 → (log2Exact p = none ↔ ∀ k : Nat, p ≠ 2 ^ k))
    ∧ ((∀ k : Nat, p ≠ 2 ^ k) → log2Exact p = none)
end

