-- ==== Sys2Proof/Laws/Memory.lean ====
section
/-! SUPPORT. The table memory: what each operation on it makes a word read as, and that each keeps the canonical form. -/

namespace Sys2Proof
namespace Machine

/-! ### The sorted list of listed words -/

theorem lookupCell_insertCell (cs : List (Nat × Word)) (i : Nat) (v : Word) (j : Nat)
    (h : cs.Pairwise (fun a b => a.1 < b.1)) :
    lookupCell (insertCell cs i v) j = if j = i then some v else lookupCell cs j := by
  induction cs with
  | nil => simp [insertCell, lookupCell]
  | cons c cs ih =>
    obtain ⟨k, u⟩ := c
    have h' := (List.pairwise_cons.mp h).2
    simp only [insertCell]
    split
    · simp [lookupCell]
    · split
      · subst i; by_cases hj : j = k <;> simp [lookupCell, hj]
      · simp only [lookupCell, ih h']
        by_cases hj : j = k
        · subst j
          have hik : ¬ k = i := fun e => by simp_all
          simp [hik]
        · simp [hj]

theorem lookupCell_filter (cs : List (Nat × Word)) (p : Nat → Bool) (j : Nat) :
    lookupCell (cs.filter (fun c => p c.1)) j = if p j then lookupCell cs j else none := by
  induction cs with
  | nil => simp [lookupCell]
  | cons c cs ih =>
    obtain ⟨k, u⟩ := c
    by_cases hk : p k <;> by_cases hj : j = k <;> simp_all [lookupCell]

theorem lookupCell_eraseCell (cs : List (Nat × Word)) (i j : Nat) :
    lookupCell (eraseCell cs i) j = if j = i then none else lookupCell cs j := by
  rw [eraseCell, lookupCell_filter cs (fun k => decide (k ≠ i))]
  by_cases h : j = i <;> simp [h]

theorem lookupCell_isSome_mem {cs : List (Nat × Word)} {i : Nat} {v : Word} (h : lookupCell cs i = some v) :
    (i, v) ∈ cs := by
  induction cs with
  | nil => simp [lookupCell] at h
  | cons c cs ih =>
    obtain ⟨k, u⟩ := c
    by_cases hk : i = k <;> simp_all [lookupCell]

theorem lookupCell_of_mem {cs : List (Nat × Word)} (h : cs.Pairwise (fun a b => a.1 < b.1)) {i : Nat} {v : Word}
    (hm : (i, v) ∈ cs) : lookupCell cs i = some v := by
  induction cs with
  | nil => simp at hm
  | cons c cs ih =>
    obtain ⟨k, u⟩ := c
    obtain ⟨h1, h2⟩ := List.pairwise_cons.mp h
    rcases List.mem_cons.mp hm with e | e
    · simp_all [lookupCell]
    · have hk : k < i := h1 _ e
      simp [lookupCell, Nat.ne_of_gt hk, ih h2 e]

theorem mem_insertCell {cs : List (Nat × Word)} {i : Nat} {v : Word} {c : Nat × Word}
    (h : c ∈ insertCell cs i v) : c = (i, v) ∨ c ∈ cs := by
  induction cs with
  | nil => simp [insertCell] at h; exact .inl h
  | cons d cs ih =>
    obtain ⟨k, u⟩ := d
    simp only [insertCell] at h
    split at h
    · simpa using h
    · split at h
      · rcases List.mem_cons.mp h with e | e
        · exact .inl e
        · exact .inr (List.mem_cons_of_mem _ e)
      · rcases List.mem_cons.mp h with e | e
        · exact .inr (by simp [e])
        · rcases ih e with e | e
          · exact .inl e
          · exact .inr (List.mem_cons_of_mem _ e)

theorem insertCell_pairwise {cs : List (Nat × Word)} (h : cs.Pairwise (fun a b => a.1 < b.1)) (i : Nat) (v : Word) :
    (insertCell cs i v).Pairwise (fun a b => a.1 < b.1) := by
  induction cs with
  | nil => simp [insertCell]
  | cons d cs ih =>
    obtain ⟨k, u⟩ := d
    obtain ⟨h1, h2⟩ := List.pairwise_cons.mp h
    simp only [insertCell]
    split
    case isTrue hik =>
      refine List.pairwise_cons.mpr ⟨fun c hc => ?_, h⟩
      rcases List.mem_cons.mp hc with e | e
      · simpa [e] using hik
      · exact Nat.lt_trans hik (h1 c e)
    case isFalse hik =>
      split
      case isTrue e => subst i; exact List.pairwise_cons.mpr ⟨h1, h2⟩
      case isFalse e =>
        refine List.pairwise_cons.mpr ⟨fun c hc => ?_, ih h2⟩
        rcases mem_insertCell hc with e' | e'
        · subst c; show k < i; omega
        · exact h1 c e'

/-! ### Reading after an operation -/

theorem Memory.unlisted_write (m : Memory) (n i : Nat) (v : Word) (n' j : Nat) :
    (m.write n i v).unlisted n' j = m.unlisted n' j := by
  unfold Memory.write; split <;> rfl

/-- The word written is read back, and every other word is as before. -/
theorem Memory.read_write {m : Memory} (h : m.cells.Pairwise (fun a b => a.1 < b.1)) (n i : Nat) (v : Word) (j : Nat) :
    (m.write n i v).read n j = if j = i then v else m.read n j := by
  unfold Memory.read
  rw [Memory.unlisted_write]
  by_cases hv : v = m.unlisted n i
  · simp only [Memory.write, if_pos hv, lookupCell_eraseCell]
    by_cases hj : j = i <;> simp [hj, hv]
  · simp only [Memory.write, if_neg hv, lookupCell_insertCell _ _ _ _ h]
    by_cases hj : j = i <;> simp [hj]

@[simp] theorem Memory.read_zeroed (n i : Nat) : Memory.zeroed.read n i = 0 := rfl

/-- INIT's fill: the pattern in the lower half, the other words as before. -/
theorem Memory.read_fillLower (m : Memory) (n i : Nat) :
    (m.fillLower n).read n i = if i < n / 2 then initWord i else m.read n i := by
  unfold Memory.read Memory.fillLower
  simp only [lookupCell_filter m.cells (fun k => decide (n / 2 ≤ k))]
  by_cases h : i < n / 2
  · have h' : ¬ n / 2 ≤ i := by omega
    simp [h, h', Memory.unlisted]
  · have h' : n / 2 ≤ i := by omega
    cases hf : m.fill <;> simp [h, h', Memory.unlisted, hf]

/-! ### The canonical form -/

theorem Memory.zeroed_wf (n : Nat) : Memory.zeroed.wf n := by simp [Memory.wf, Memory.zeroed]

theorem Memory.write_wf {m : Memory} {n : Nat} (h : m.wf n) {i : Nat} (hi : i < n) (v : Word) :
    (m.write n i v).wf n := by
  refine ⟨?_, fun c hc => ?_⟩
  · unfold Memory.write
    split
    · exact h.1.filter _
    · exact insertCell_pairwise h.1 i v
  · rw [Memory.unlisted_write]
    unfold Memory.write at hc
    split at hc
    case isTrue => exact h.2 c (List.mem_of_mem_filter hc)
    case isFalse hv =>
      rcases mem_insertCell hc with e | e
      · subst c; exact ⟨hi, hv⟩
      · exact h.2 c e

theorem Memory.fillLower_wf {m : Memory} {n : Nat} (h : m.wf n) : (m.fillLower n).wf n := by
  refine ⟨h.1.filter _, fun c hc => ?_⟩
  obtain ⟨hm, hge⟩ := List.mem_filter.mp hc
  have hge' : n / 2 ≤ c.1 := by simpa using hge
  obtain ⟨hlt, hne⟩ := h.2 c hm
  refine ⟨hlt, ?_⟩
  have hlo : ¬ c.1 < n / 2 := by omega
  cases hf : m.fill <;> simpa [Memory.fillLower, Memory.unlisted, hf, hlo] using hne

/-- A word is listed exactly where it differs from what the fill gives. -/
theorem Memory.lookup_of_wf {m : Memory} {n : Nat} (h : m.wf n) (i : Nat) :
    lookupCell m.cells i = if m.read n i = m.unlisted n i then none else some (m.read n i) := by
  unfold Memory.read
  cases hl : lookupCell m.cells i with
  | none => simp
  | some v =>
    have := (h.2 _ (lookupCell_isSome_mem hl)).2
    simpa using this

end Machine
end Sys2Proof
end

