-- ==== Sys2Proof/Laws/State.lean ====
section
/-! SUPPORT. What each named update of the state makes of each field: one line a field, so that no later proof unfolds a record
update. -/

namespace Sys2Proof
namespace Machine

/-! ### pushResponse -/

@[simp] theorem State.pushResponse_phase (s : State) (rw : ResponseWord) : (s.pushResponse rw).phase = s.phase := rfl
@[simp] theorem State.pushResponse_asb (s : State) (rw : ResponseWord) : (s.pushResponse rw).asb = s.asb := rfl
@[simp] theorem State.pushResponse_ps (s : State) (rw : ResponseWord) : (s.pushResponse rw).ps = s.ps := rfl
@[simp] theorem State.pushResponse_psb (s : State) (rw : ResponseWord) : (s.pushResponse rw).psb = s.psb := rfl
@[simp] theorem State.pushResponse_vpnMask (s : State) (rw : ResponseWord) : (s.pushResponse rw).vpnMask = s.vpnMask := rfl
@[simp] theorem State.pushResponse_shift (s : State) (rw : ResponseWord) : (s.pushResponse rw).shift = s.shift := rfl
@[simp] theorem State.pushResponse_pfnShift (s : State) (rw : ResponseWord) : (s.pushResponse rw).pfnShift = s.pfnShift := rfl
@[simp] theorem State.pushResponse_offsetMask (s : State) (rw : ResponseWord) : (s.pushResponse rw).offsetMask = s.offsetMask := rfl
@[simp] theorem State.pushResponse_numPtes (s : State) (rw : ResponseWord) : (s.pushResponse rw).numPtes = s.numPtes := rfl
@[simp] theorem State.pushResponse_ptbrOwn (s : State) (rw : ResponseWord) : (s.pushResponse rw).ptbrOwn = s.ptbrOwn := rfl
@[simp] theorem State.pushResponse_tbl (s : State) (rw : ResponseWord) : (s.pushResponse rw).tbl = s.tbl := rfl
@[simp] theorem State.pushResponse_params (s : State) (rw : ResponseWord) : (s.pushResponse rw).params = s.params := rfl
@[simp] theorem State.pushResponse_inputs (s : State) (rw : ResponseWord) : (s.pushResponse rw).inputs = s.inputs := rfl
@[simp] theorem State.pushResponse_responses (s : State) (rw : ResponseWord) : (s.pushResponse rw).responses = s.responses ++ [rw] := rfl
@[simp] theorem State.pushResponse_traces (s : State) (rw : ResponseWord) : (s.pushResponse rw).traces = s.traces := rfl

/-! ### setPhase -/

@[simp] theorem State.setPhase_phase (s : State) (p : Phase) : (s.setPhase p).phase = p := rfl
@[simp] theorem State.setPhase_asb (s : State) (p : Phase) : (s.setPhase p).asb = s.asb := rfl
@[simp] theorem State.setPhase_ps (s : State) (p : Phase) : (s.setPhase p).ps = s.ps := rfl
@[simp] theorem State.setPhase_psb (s : State) (p : Phase) : (s.setPhase p).psb = s.psb := rfl
@[simp] theorem State.setPhase_vpnMask (s : State) (p : Phase) : (s.setPhase p).vpnMask = s.vpnMask := rfl
@[simp] theorem State.setPhase_shift (s : State) (p : Phase) : (s.setPhase p).shift = s.shift := rfl
@[simp] theorem State.setPhase_pfnShift (s : State) (p : Phase) : (s.setPhase p).pfnShift = s.pfnShift := rfl
@[simp] theorem State.setPhase_offsetMask (s : State) (p : Phase) : (s.setPhase p).offsetMask = s.offsetMask := rfl
@[simp] theorem State.setPhase_numPtes (s : State) (p : Phase) : (s.setPhase p).numPtes = s.numPtes := rfl
@[simp] theorem State.setPhase_ptbrOwn (s : State) (p : Phase) : (s.setPhase p).ptbrOwn = s.ptbrOwn := rfl
@[simp] theorem State.setPhase_tbl (s : State) (p : Phase) : (s.setPhase p).tbl = s.tbl := rfl
@[simp] theorem State.setPhase_params (s : State) (p : Phase) : (s.setPhase p).params = s.params := rfl
@[simp] theorem State.setPhase_inputs (s : State) (p : Phase) : (s.setPhase p).inputs = s.inputs := rfl
@[simp] theorem State.setPhase_responses (s : State) (p : Phase) : (s.setPhase p).responses = s.responses := rfl
@[simp] theorem State.setPhase_traces (s : State) (p : Phase) : (s.setPhase p).traces = s.traces := rfl

/-! ### allocateTable -/

@[simp] theorem State.allocateTable_phase (s : State) (n : Nat) : (s.allocateTable n).phase = .allocated := rfl
@[simp] theorem State.allocateTable_asb (s : State) (n : Nat) : (s.allocateTable n).asb = s.asb := rfl
@[simp] theorem State.allocateTable_ps (s : State) (n : Nat) : (s.allocateTable n).ps = s.ps := rfl
@[simp] theorem State.allocateTable_psb (s : State) (n : Nat) : (s.allocateTable n).psb = s.psb := rfl
@[simp] theorem State.allocateTable_vpnMask (s : State) (n : Nat) : (s.allocateTable n).vpnMask = s.vpnMask := rfl
@[simp] theorem State.allocateTable_shift (s : State) (n : Nat) : (s.allocateTable n).shift = s.shift := rfl
@[simp] theorem State.allocateTable_pfnShift (s : State) (n : Nat) : (s.allocateTable n).pfnShift = s.pfnShift := rfl
@[simp] theorem State.allocateTable_offsetMask (s : State) (n : Nat) : (s.allocateTable n).offsetMask = s.offsetMask := rfl
@[simp] theorem State.allocateTable_numPtes (s : State) (n : Nat) : (s.allocateTable n).numPtes = BitVec.ofNat 33 n := rfl
@[simp] theorem State.allocateTable_ptbrOwn (s : State) (n : Nat) : (s.allocateTable n).ptbrOwn = true := rfl
@[simp] theorem State.allocateTable_tbl (s : State) (n : Nat) : (s.allocateTable n).tbl = Memory.zeroed := rfl
@[simp] theorem State.allocateTable_params (s : State) (n : Nat) : (s.allocateTable n).params = s.params := rfl
@[simp] theorem State.allocateTable_inputs (s : State) (n : Nat) : (s.allocateTable n).inputs = s.inputs := rfl
@[simp] theorem State.allocateTable_responses (s : State) (n : Nat) : (s.allocateTable n).responses = s.responses := rfl
@[simp] theorem State.allocateTable_traces (s : State) (n : Nat) : (s.allocateTable n).traces = s.traces := rfl

/-! ### fillTable -/

@[simp] theorem State.fillTable_phase (s : State) : (s.fillTable).phase = .ready := rfl
@[simp] theorem State.fillTable_asb (s : State) : (s.fillTable).asb = s.asb := rfl
@[simp] theorem State.fillTable_ps (s : State) : (s.fillTable).ps = s.ps := rfl
@[simp] theorem State.fillTable_psb (s : State) : (s.fillTable).psb = s.psb := rfl
@[simp] theorem State.fillTable_vpnMask (s : State) : (s.fillTable).vpnMask = s.vpnMask := rfl
@[simp] theorem State.fillTable_shift (s : State) : (s.fillTable).shift = s.shift := rfl
@[simp] theorem State.fillTable_pfnShift (s : State) : (s.fillTable).pfnShift = s.pfnShift := rfl
@[simp] theorem State.fillTable_offsetMask (s : State) : (s.fillTable).offsetMask = s.offsetMask := rfl
@[simp] theorem State.fillTable_numPtes (s : State) : (s.fillTable).numPtes = s.numPtes := rfl
@[simp] theorem State.fillTable_ptbrOwn (s : State) : (s.fillTable).ptbrOwn = s.ptbrOwn := rfl
@[simp] theorem State.fillTable_tbl (s : State) : (s.fillTable).tbl = s.tbl.fillLower s.numPtes.toNat := rfl
@[simp] theorem State.fillTable_params (s : State) : (s.fillTable).params = s.params := rfl
@[simp] theorem State.fillTable_inputs (s : State) : (s.fillTable).inputs = s.inputs := rfl
@[simp] theorem State.fillTable_responses (s : State) : (s.fillTable).responses = s.responses := rfl
@[simp] theorem State.fillTable_traces (s : State) : (s.fillTable).traces = s.traces := rfl

/-! ### withInputs -/

@[simp] theorem State.withInputs_phase (s : State) (rest : List HostInput) : (s.withInputs rest).phase = s.phase := rfl
@[simp] theorem State.withInputs_asb (s : State) (rest : List HostInput) : (s.withInputs rest).asb = s.asb := rfl
@[simp] theorem State.withInputs_ps (s : State) (rest : List HostInput) : (s.withInputs rest).ps = s.ps := rfl
@[simp] theorem State.withInputs_psb (s : State) (rest : List HostInput) : (s.withInputs rest).psb = s.psb := rfl
@[simp] theorem State.withInputs_vpnMask (s : State) (rest : List HostInput) : (s.withInputs rest).vpnMask = s.vpnMask := rfl
@[simp] theorem State.withInputs_shift (s : State) (rest : List HostInput) : (s.withInputs rest).shift = s.shift := rfl
@[simp] theorem State.withInputs_pfnShift (s : State) (rest : List HostInput) : (s.withInputs rest).pfnShift = s.pfnShift := rfl
@[simp] theorem State.withInputs_offsetMask (s : State) (rest : List HostInput) : (s.withInputs rest).offsetMask = s.offsetMask := rfl
@[simp] theorem State.withInputs_numPtes (s : State) (rest : List HostInput) : (s.withInputs rest).numPtes = s.numPtes := rfl
@[simp] theorem State.withInputs_ptbrOwn (s : State) (rest : List HostInput) : (s.withInputs rest).ptbrOwn = s.ptbrOwn := rfl
@[simp] theorem State.withInputs_tbl (s : State) (rest : List HostInput) : (s.withInputs rest).tbl = s.tbl := rfl
@[simp] theorem State.withInputs_params (s : State) (rest : List HostInput) : (s.withInputs rest).params = s.params := rfl
@[simp] theorem State.withInputs_inputs (s : State) (rest : List HostInput) : (s.withInputs rest).inputs = rest := rfl
@[simp] theorem State.withInputs_responses (s : State) (rest : List HostInput) : (s.withInputs rest).responses = s.responses := rfl
@[simp] theorem State.withInputs_traces (s : State) (rest : List HostInput) : (s.withInputs rest).traces = s.traces := rfl

/-! ### latchLayout -/

@[simp] theorem State.latchLayout_phase (s : State) (a p : BitVec 16) (l : LayoutConstants) : (s.latchLayout a p l).phase = .laidOut := rfl
@[simp] theorem State.latchLayout_asb (s : State) (a p : BitVec 16) (l : LayoutConstants) : (s.latchLayout a p l).asb = a.setWidth 6 := rfl
@[simp] theorem State.latchLayout_ps (s : State) (a p : BitVec 16) (l : LayoutConstants) : (s.latchLayout a p l).ps = p.setWidth 13 := rfl
@[simp] theorem State.latchLayout_psb (s : State) (a p : BitVec 16) (l : LayoutConstants) : (s.latchLayout a p l).psb = l.pageSizeBits := rfl
@[simp] theorem State.latchLayout_vpnMask (s : State) (a p : BitVec 16) (l : LayoutConstants) : (s.latchLayout a p l).vpnMask = l.vpnMask := rfl
@[simp] theorem State.latchLayout_shift (s : State) (a p : BitVec 16) (l : LayoutConstants) : (s.latchLayout a p l).shift = l.shift := rfl
@[simp] theorem State.latchLayout_pfnShift (s : State) (a p : BitVec 16) (l : LayoutConstants) : (s.latchLayout a p l).pfnShift = l.pfnShift := rfl
@[simp] theorem State.latchLayout_offsetMask (s : State) (a p : BitVec 16) (l : LayoutConstants) : (s.latchLayout a p l).offsetMask = l.offsetMask := rfl
@[simp] theorem State.latchLayout_numPtes (s : State) (a p : BitVec 16) (l : LayoutConstants) : (s.latchLayout a p l).numPtes = s.numPtes := rfl
@[simp] theorem State.latchLayout_ptbrOwn (s : State) (a p : BitVec 16) (l : LayoutConstants) : (s.latchLayout a p l).ptbrOwn = s.ptbrOwn := rfl
@[simp] theorem State.latchLayout_tbl (s : State) (a p : BitVec 16) (l : LayoutConstants) : (s.latchLayout a p l).tbl = s.tbl := rfl
@[simp] theorem State.latchLayout_params (s : State) (a p : BitVec 16) (l : LayoutConstants) : (s.latchLayout a p l).params = s.params := rfl
@[simp] theorem State.latchLayout_inputs (s : State) (a p : BitVec 16) (l : LayoutConstants) : (s.latchLayout a p l).inputs = s.inputs := rfl
@[simp] theorem State.latchLayout_responses (s : State) (a p : BitVec 16) (l : LayoutConstants) : (s.latchLayout a p l).responses = s.responses := rfl
@[simp] theorem State.latchLayout_traces (s : State) (a p : BitVec 16) (l : LayoutConstants) : (s.latchLayout a p l).traces = s.traces := rfl

/-! ### emitTrace: the trace stream only, and only under TRACE_EN -/

@[simp] theorem State.emitTrace_phase (s : State) (tr : TraceWord) : (s.emitTrace tr).phase = s.phase := by
  unfold State.emitTrace; split <;> rfl
@[simp] theorem State.emitTrace_asb (s : State) (tr : TraceWord) : (s.emitTrace tr).asb = s.asb := by
  unfold State.emitTrace; split <;> rfl
@[simp] theorem State.emitTrace_ps (s : State) (tr : TraceWord) : (s.emitTrace tr).ps = s.ps := by
  unfold State.emitTrace; split <;> rfl
@[simp] theorem State.emitTrace_psb (s : State) (tr : TraceWord) : (s.emitTrace tr).psb = s.psb := by
  unfold State.emitTrace; split <;> rfl
@[simp] theorem State.emitTrace_vpnMask (s : State) (tr : TraceWord) : (s.emitTrace tr).vpnMask = s.vpnMask := by
  unfold State.emitTrace; split <;> rfl
@[simp] theorem State.emitTrace_shift (s : State) (tr : TraceWord) : (s.emitTrace tr).shift = s.shift := by
  unfold State.emitTrace; split <;> rfl
@[simp] theorem State.emitTrace_pfnShift (s : State) (tr : TraceWord) : (s.emitTrace tr).pfnShift = s.pfnShift := by
  unfold State.emitTrace; split <;> rfl
@[simp] theorem State.emitTrace_offsetMask (s : State) (tr : TraceWord) : (s.emitTrace tr).offsetMask = s.offsetMask := by
  unfold State.emitTrace; split <;> rfl
@[simp] theorem State.emitTrace_numPtes (s : State) (tr : TraceWord) : (s.emitTrace tr).numPtes = s.numPtes := by
  unfold State.emitTrace; split <;> rfl
@[simp] theorem State.emitTrace_ptbrOwn (s : State) (tr : TraceWord) : (s.emitTrace tr).ptbrOwn = s.ptbrOwn := by
  unfold State.emitTrace; split <;> rfl
@[simp] theorem State.emitTrace_tbl (s : State) (tr : TraceWord) : (s.emitTrace tr).tbl = s.tbl := by
  unfold State.emitTrace; split <;> rfl
@[simp] theorem State.emitTrace_params (s : State) (tr : TraceWord) : (s.emitTrace tr).params = s.params := by
  unfold State.emitTrace; split <;> rfl
@[simp] theorem State.emitTrace_inputs (s : State) (tr : TraceWord) : (s.emitTrace tr).inputs = s.inputs := by
  unfold State.emitTrace; split <;> rfl
@[simp] theorem State.emitTrace_responses (s : State) (tr : TraceWord) : (s.emitTrace tr).responses = s.responses := by
  unfold State.emitTrace; split <;> rfl

theorem State.emitTrace_traces (s : State) (tr : TraceWord) :
    (s.emitTrace tr).traces = s.traces ++ if s.params.traceEn then [tr] else [] := by
  unfold State.emitTrace; split <;> simp

/-- The emitted state is the old one with another trace stream. -/
theorem State.emitTrace_eq (s : State) (tr : TraceWord) :
    s.emitTrace tr = { s with traces := (s.emitTrace tr).traces } := by
  unfold State.emitTrace; split <;> rfl

/-! ### Reads that an update leaves alone -/

@[simp] theorem State.pushResponse_entry (s : State) (rw : ResponseWord) (i : Nat) :
    (s.pushResponse rw).entry i = s.entry i := rfl

@[simp] theorem State.setPhase_entry (s : State) (p : Phase) (i : Nat) : (s.setPhase p).entry i = s.entry i := rfl

@[simp] theorem State.emitTrace_entry (s : State) (tr : TraceWord) (i : Nat) : (s.emitTrace tr).entry i = s.entry i := by
  simp [State.entry]

@[simp] theorem State.allocateTable_entry (s : State) (n i : Nat) : (s.allocateTable n).entry i = 0 := by
  simp [State.entry]

/-- INIT's effect on the words of the table (41_table_alloc_init.md R134, R138). -/
@[simp] theorem State.fillTable_entry (s : State) (i : Nat) :
    s.fillTable.entry i = if i < s.numPtes.toNat / 2 then initWord i else s.entry i := by
  simp [State.entry, Memory.read_fillLower]

end Machine
end Sys2Proof
end

