-- ==== Sys2Proof/Laws/Ops.lean ====
section
/-! SUPPORT. One lemma for each shared operation: everything it can do. -/

namespace Sys2Proof
namespace Machine

/-! ### The configuration check and the layout -/

theorem log2Exact_eq_some {p : Nat} {k : Fin 13} (h : log2Exact p = some k) : p = 2 ^ k.val := by
  have := List.find?_some h
  simpa using this

theorem log2Exact_pow (k : Fin 13) : log2Exact (2 ^ k.val) = some k := by revert k; decide

/-- The exponent of a configuration is found exactly when the four conditions of R111 hold with it. -/
theorem configExponent_eq_some {a p : BitVec 16} {k : Fin 13} :
    configExponent a p = some k ↔ ValidConfig a p k.val := by
  constructor
  · intro h
    unfold configExponent at h
    by_cases hv : validConfig a p = true
    case pos =>
      rw [if_pos hv] at h
      unfold validConfig at hv
      have hk := log2Exact_eq_some h
      simp only [h] at hv
      simp only [Bool.and_eq_true, decide_eq_true_eq] at hv
      exact ⟨hv.1.1, hv.1.2, hk, hv.2⟩
    case neg => rw [if_neg hv] at h; cases h
  · rintro ⟨⟨h1, h2⟩, ⟨h3, h4⟩, h5, h6⟩
    have hl : log2Exact p.toNat = some k := by rw [h5]; exact log2Exact_pow k
    simp [configExponent, validConfig, hl, h1, h2, h3, h4, h6]

theorem configExponent_eq_none {a p : BitVec 16} : configExponent a p = none ↔ ¬ ∃ k, ValidConfig a p k := by
  constructor
  · rintro h ⟨k, hk⟩
    have h12 : k < 13 := by
      by_contra hc
      have : 2 ^ 13 ≤ 2 ^ k := Nat.pow_le_pow_right (by omega) (by omega)
      have := hk.2.1.2; have := hk.2.2.1; omega
    have := (configExponent_eq_some (k := ⟨k, h12⟩)).mpr hk
    simp [h] at this
  · intro h
    cases hc : configExponent a p with
    | none => rfl
    | some k => exact absurd ⟨k.val, configExponent_eq_some.mp hc⟩ h

/-- The thirteen rows of 40_geometry.md R115 as closed forms (R113). -/
theorem computeLayout_eq (k : Fin 13) :
    computeLayout k =
      { pageSizeBits := BitVec.ofNat 4 k.val, vpnMask := BitVec.ofNat 32 (2 ^ 32 - 2 ^ k.val), shift := BitVec.ofNat 4 k.val,
        pfnShift := BitVec.ofNat 4 k.val, offsetMask := BitVec.ofNat 32 (2 ^ k.val - 1) } := by
  revert k; decide

/-! ### The table memory through its port -/

theorem tableAccess_ok {s : State} {addr i : Nat} :
    tableAccess s addr = .ok i ↔ s.ptbrOwn = true ∧ addr = 4 * i ∧ i < s.numPtes.toNat := by
  unfold tableAccess
  split
  case isTrue ho =>
    split
    case isTrue h =>
      constructor
      · intro e; cases e; exact ⟨ho, by omega, h.2⟩
      · rintro ⟨-, rfl, h'⟩; congr; omega
    case isFalse h =>
      constructor
      · intro e; cases e
      · rintro ⟨-, rfl, h'⟩; exact absurd ⟨by omega, by omega⟩ h
  case isFalse ho => simp [ho]

/-- A read at the offset of an entry of an owned table gives the entry (20_memory.md R53). -/
theorem memRead_pteOffset {s : State} {i : Nat} (ho : s.ptbrOwn = true) (hi : i < s.numPtes.toNat) :
    memRead s (pteOffset i) = .ok (s.entry i) := by
  have : tableAccess s (pteOffset i) = .ok i := tableAccess_ok.mpr ⟨ho, by simp [pteOffset, ptbrBase], hi⟩
  simp [memRead, this]

/-- A write at the offset of an entry of an owned table writes that entry (20_memory.md R54). -/
theorem memWrite_pteOffset {s : State} {i : Nat} (v : Word) (ho : s.ptbrOwn = true) (hi : i < s.numPtes.toNat) :
    memWrite s (pteOffset i) v = .ok { s with tbl := s.tbl.write s.numPtes.toNat i v } := by
  have : tableAccess s (pteOffset i) = .ok i := tableAccess_ok.mpr ⟨ho, by simp [pteOffset, ptbrBase], hi⟩
  simp [memWrite, this]

/-- A read depends on PTBR.OWN, NUM_PTES and the entries only. -/
theorem memRead_congr {s t : State} (ho : t.ptbrOwn = s.ptbrOwn) (hn : t.numPtes = s.numPtes) (addr : Nat)
    (he : ∀ i, addr = 4 * i → t.entry i = s.entry i) : memRead t addr = memRead s addr := by
  have ha : tableAccess t addr = tableAccess s addr := by simp [tableAccess, ho, hn]
  unfold memRead
  rw [ha]
  cases h : tableAccess s addr with
  | error f => rfl
  | ok i => simp [he i (tableAccess_ok.mp h).2.1]

/-! ### What each command can do -/

theorem execLayout_cases {s t : State} {a p : BitVec 16} (h : execLayout a p s = .next t) :
    (s.phase ≠ .reset ∧ t = s.pushResponse (respWord .badSequence 0))
    ∨ (s.phase = .reset ∧ configExponent a p = none ∧ t = s.pushResponse (respWord .invalidConfiguration 0))
    ∨ ∃ k, s.phase = .reset ∧ configExponent a p = some k
        ∧ t = (s.latchLayout a p (computeLayout k)).pushResponse (respWord .ok 0) := by
  unfold execLayout at h
  split at h
  case isTrue hp =>
    cases hc : configExponent a p with
    | none => simp only [hc] at h; cases h; exact .inr (.inl ⟨hp, rfl, rfl⟩)
    | some k => simp only [hc] at h; cases h; exact .inr (.inr ⟨k, hp, rfl, rfl⟩)
  case isFalse hp => cases h; exact .inl ⟨hp, rfl⟩

theorem execAlloc_cases {s t : State} (h : execAlloc s = .next t) :
    (s.phase ≠ .laidOut ∧ t = s.pushResponse (respWord .badSequence 0))
    ∨ (s.phase = .laidOut ∧ s.psb.toNat ≤ s.asb.toNat ∧ s.params.tableCap.toNat < entryCount s.asb.toNat s.psb.toNat
        ∧ t = (s.setPhase .failed).pushResponse (respWord .allocFailure 0))
    ∨ (s.phase = .laidOut ∧ s.psb.toNat ≤ s.asb.toNat ∧ entryCount s.asb.toNat s.psb.toNat ≤ s.params.tableCap.toNat
        ∧ t = (s.allocateTable (entryCount s.asb.toNat s.psb.toNat)).pushResponse (respWord .ok 0)) := by
  unfold execAlloc at h
  split at h
  case isTrue hp =>
    split at h
    case isTrue hk =>
      split at h
      case isTrue hc => cases h; exact .inr (.inl ⟨hp, hk, hc, rfl⟩)
      case isFalse hc => cases h; exact .inr (.inr ⟨hp, hk, Nat.le_of_not_lt hc, rfl⟩)
    case isFalse => cases h
  case isFalse hp => cases h; exact .inl ⟨hp, rfl⟩

theorem execInit_cases {s t : State} (h : execInit s = .next t) :
    (s.phase ≠ .allocated ∧ t = s.pushResponse (respWord .badSequence 0))
    ∨ (s.phase = .allocated ∧ s.ptbrOwn = true ∧ t = s.fillTable.pushResponse (respWord .ok 0)) := by
  unfold execInit at h
  split at h
  case isTrue hp =>
    split at h
    case isTrue ho => cases h; exact .inr ⟨hp, ho, rfl⟩
    case isFalse => cases h
  case isFalse hp => cases h; exact .inl ⟨hp, rfl⟩

/-- The status and data XLATE answers for the entry it read (42_translate.md R156, R158). -/
def entryAnswer (s : State) (va e : Word) : Word :=
  if permission e = .ok then physicalAddress s (ptePfn e) va else 0

theorem finishXlate_eq (va vpn e : Word) (s : State) :
    finishXlate va vpn e s =
      .next ((s.emitTrace (traceEntry vpn e)).pushResponse (respWord (permission e) (entryAnswer s va e))) := by
  unfold finishXlate entryAnswer
  have hp : physicalAddress (s.emitTrace (traceEntry vpn e)) (ptePfn e) va = physicalAddress s (ptePfn e) va := by
    simp [physicalAddress, extractOffset]
  cases permission e <;> simp [raise, respond]

theorem numPtes_le_setWidth (s : State) (vpn : Word) :
    s.numPtes ≤ vpn.setWidth 33 ↔ s.numPtes.toNat ≤ vpn.toNat := by
  have : vpn.toNat < 2 ^ 32 := vpn.isLt
  rw [BitVec.le_def, BitVec.toNat_setWidth, Nat.mod_eq_of_lt (by omega)]

theorem execXlate_cases {s t : State} {va : Word} (h : execXlate va s = .next t) :
    (s.phase ≠ .ready ∧ t = s.pushResponse (respWord .badSequence 0))
    ∨ (s.phase = .ready ∧ s.numPtes.toNat ≤ (extractVpn s va).toNat
        ∧ t = (s.emitTrace (traceNoEntry (extractVpn s va))).pushResponse (respWord .outOfRange 0))
    ∨ (s.phase = .ready ∧ s.ptbrOwn = true ∧ (extractVpn s va).toNat < s.numPtes.toNat
        ∧ t = (s.emitTrace (traceEntry (extractVpn s va) (s.entry (extractVpn s va).toNat))).pushResponse
            (respWord (permission (s.entry (extractVpn s va).toNat))
              (entryAnswer s va (s.entry (extractVpn s va).toNat)))) := by
  unfold execXlate at h
  split at h
  case isTrue hp =>
    unfold lookupXlate at h
    split at h
    case isTrue hb => cases h; exact .inr (.inl ⟨hp, (numPtes_le_setWidth s _).mp hb, rfl⟩)
    case isFalse hb =>
      have hb' := Nat.lt_of_not_le (mt (numPtes_le_setWidth s _).mpr hb)
      cases ho : s.ptbrOwn with
      | false => simp [memRead, tableAccess, ho] at h
      | true =>
        rw [memRead_pteOffset ho hb'] at h
        simp only [finishXlate_eq] at h
        cases h
        exact .inr (.inr ⟨hp, rfl, hb', rfl⟩)
  case isFalse hp => cases h; exact .inl ⟨hp, rfl⟩

theorem execXlate_outOfRange {s : State} {va : Word} (hp : s.phase = .ready)
    (hb : s.numPtes.toNat ≤ (extractVpn s va).toNat) :
    execXlate va s = .next ((s.emitTrace (traceNoEntry (extractVpn s va))).pushResponse (respWord .outOfRange 0)) := by
  simp [execXlate, hp, lookupXlate, numPtes_le_setWidth, hb, raise, respond]

theorem execXlate_entry {s : State} {va : Word} (hp : s.phase = .ready) (ho : s.ptbrOwn = true)
    (hb : (extractVpn s va).toNat < s.numPtes.toNat) :
    execXlate va s = .next ((s.emitTrace (traceEntry (extractVpn s va) (s.entry (extractVpn s va).toNat))).pushResponse
      (respWord (permission (s.entry (extractVpn s va).toNat))
        (entryAnswer s va (s.entry (extractVpn s va).toNat)))) := by
  simp [execXlate, hp, lookupXlate, numPtes_le_setWidth, Nat.not_le.mpr hb, memRead_pteOffset ho hb, finishXlate_eq]

end Machine
end Sys2Proof
end

