-- ==== Sys2Proof/Laws/Loop.lean ====
section
/-! SUPPORT. The spec's loop of MemWrites, what it leaves, and two facts on tables that comparisons of tables rest on. -/

namespace Sys2Proof
namespace Machine

theorem Memory.write_pairwise {m : Memory} (h : m.cells.Pairwise (fun a b => a.1 < b.1)) (n i : Nat) (v : Word) :
    (m.write n i v).cells.Pairwise (fun a b => a.1 < b.1) := by
  unfold Memory.write
  split
  · exact h.filter _
  · exact insertCell_pairwise h i v

/-- A loop of `k` MemWrites into an owned table of at least `k` entries never faults: it writes the entries below `k` and
leaves the others (41_table_alloc_init.md R130, R134). -/
theorem writeLoop_ok (word : Nat → Word) (k : Nat) (s : State) (ho : s.ptbrOwn = true) (hk : k ≤ s.numPtes.toNat)
    (hp : s.tbl.cells.Pairwise (fun a b => a.1 < b.1)) :
    ∃ m, writeLoop word k s = .ok { s with tbl := m } ∧ m.cells.Pairwise (fun a b => a.1 < b.1)
      ∧ ∀ i, m.read s.numPtes.toNat i = if i < k then word i else s.entry i := by
  induction k with
  | zero => exact ⟨s.tbl, rfl, hp, fun i => by simp [State.entry]⟩
  | succ k ih =>
    obtain ⟨m, h1, h2, h3⟩ := ih (by omega)
    refine ⟨m.write s.numPtes.toNat k (word k), ?_, Memory.write_pairwise h2 _ _ _, fun i => ?_⟩
    · rw [writeLoop, h1]
      exact memWrite_pteOffset (s := { s with tbl := m }) (word k) ho (by simp; omega)
    · rw [Memory.read_write h2, h3]
      by_cases h : i = k
      · simp [h]
      · have hlt : i < k + 1 ↔ i < k := by omega
        simp [h, hlt]

/-- Two sorted lists that answer every lookup alike are the same list. -/
theorem lookupCell_ext : ∀ cs ds : List (Nat × Word), cs.Pairwise (fun a b => a.1 < b.1) →
    ds.Pairwise (fun a b => a.1 < b.1) → (∀ i, lookupCell cs i = lookupCell ds i) → cs = ds
  | [], [], _, _, _ => rfl
  | [], (k, v) :: ds, _, _, h => by have := h k; simp [lookupCell] at this
  | (k, v) :: cs, [], _, _, h => by have := h k; simp [lookupCell] at this
  | (k, v) :: cs, (l, w) :: ds, hc, hd, h => by
    obtain ⟨c1, c2⟩ := List.pairwise_cons.mp hc
    obtain ⟨d1, d2⟩ := List.pairwise_cons.mp hd
    have hk := h k
    have hl := h l
    have hkl : k = l := by
      by_contra hne
      simp [lookupCell, hne] at hk
      simp [lookupCell, Ne.symm hne] at hl
      have := d1 _ (lookupCell_isSome_mem hk.symm)
      have := c1 _ (lookupCell_isSome_mem hl)
      simp at *
      omega
    subst hkl
    simp [lookupCell] at hk
    subst hk
    rw [lookupCell_ext cs ds c2 d2]
    intro i
    by_cases hi : i = k
    · subst hi
      have below : ∀ es : List (Nat × Word), (∀ e ∈ es, i < e.1) → lookupCell es i = none := fun es he => by
        cases hx : lookupCell es i with
        | none => rfl
        | some x => have := he _ (lookupCell_isSome_mem hx); simp at this
      rw [below cs (fun e he => c1 e he), below ds (fun e he => d1 e he)]
    · have := h i
      simpa [lookupCell, hi] using this

/-- The words of a READY table of the invariant. -/
theorem State.entry_of_ready {s : State} (hi : s.Inv) (hp : s.phase = .ready) (i : Nat) :
    s.entry i = if i < s.numPtes.toNat / 2 then initWord i else 0 := by
  have : s.tbl = { fill := .pattern, cells := [] } := by rw [hi.2.2.2.2]; simp [hp]
  simp [State.entry, this, Memory.read, lookupCell, Memory.unlisted]

end Machine
end Sys2Proof
end

