-- ==== Sys2Proof/Laws/Words.lean ====
section
/-! SUPPORT. The bit fields of command words, response words, trace records and page-table entries as arithmetic on numbers. -/

namespace Sys2Proof

/-- Juxtaposing two fields, as a number. -/
theorem toNat_juxtapose {m n : Nat} (a : BitVec m) (b : BitVec n) : (a ++ b).toNat = a.toNat * 2 ^ n + b.toNat := by
  rw [BitVec.toNat_append, Nat.shiftLeft_eq, Nat.mul_comm, ← Nat.two_pow_add_eq_or_of_lt b.isLt]

theorem opcodeField_toNat (w : CommandWord) : (opcodeField w).toNat = w.toNat / 2 ^ 32 := by
  have := w.isLt
  simp only [opcodeField, BitVec.extractLsb'_toNat, Nat.shiftRight_eq_div_pow]
  omega

theorem argField_toNat (w : CommandWord) : (argField w).toNat = w.toNat % 2 ^ 32 := by
  simp [argField]

theorem encode_toNat (i : Instr) :
    (encode i).toNat = i.opcode.toNat * 2 ^ 32 +
      match i with
      | .layout a p => a.toNat * 2 ^ 16 + p.toNat
      | .alloc => 0
      | .init => 0
      | .xlate va => va.toNat := by
  cases i with
  | layout a p =>
    have h1 := toNat_juxtapose (0x01 : BitVec 8) (a ++ p)
    have h2 := toNat_juxtapose a p
    exact h1.trans (congrArg (1 * 2 ^ 32 + ·) h2)
  | alloc => rfl
  | init => rfl
  | xlate va => exact toNat_juxtapose (0x04 : BitVec 8) va

/-- A command word is given by its two fields. -/
theorem commandWord_ext {w w' : CommandWord} (h : opcodeField w = opcodeField w') (h' : argField w = argField w') :
    w = w' := by
  apply BitVec.eq_of_toNat_eq
  have h1 := congrArg BitVec.toNat h
  have h2 := congrArg BitVec.toNat h'
  rw [opcodeField_toNat, opcodeField_toNat] at h1
  rw [argField_toNat, argField_toNat] at h2
  omega

namespace Machine

theorem respWord_toNat (st : Status) (data : Word) :
    (respWord st data).toNat = (statusCode st).toNat * 2 ^ 32 + data.toNat := toNat_juxtapose _ _

@[simp] theorem respStatus_respWord (st : Status) (data : Word) : respStatus (respWord st data) = statusCode st := by
  apply BitVec.eq_of_toNat_eq
  have := (statusCode st).isLt
  have := data.isLt
  simp only [respStatus, BitVec.extractLsb'_toNat, Nat.shiftRight_eq_div_pow, respWord_toNat]
  omega

@[simp] theorem respData_respWord (st : Status) (data : Word) : respData (respWord st data) = data := by
  apply BitVec.eq_of_toNat_eq
  have := data.isLt
  simp only [respData, BitVec.extractLsb'_toNat, Nat.shiftRight_eq_div_pow, respWord_toNat]
  omega

theorem statusCode_inj {st st' : Status} (h : statusCode st = statusCode st') : st = st' := by
  revert h; cases st <;> cases st' <;> decide

/-- A response word determines its status and its data. -/
@[simp] theorem respWord_inj {st st' : Status} {d d' : Word} : respWord st d = respWord st' d' ↔ st = st' ∧ d = d' := by
  constructor
  · intro h
    refine ⟨statusCode_inj ?_, ?_⟩
    · simpa using congrArg respStatus h
    · simpa using congrArg respData h
  · rintro ⟨rfl, rfl⟩; rfl

/-! ### Page-table entries -/

theorem ptePfn_toNat (e : Word) : (ptePfn e).toNat = e.toNat / 2 ^ 12 := by
  have := e.isLt
  simp only [ptePfn, BitVec.extractLsb'_toNat, Nat.shiftRight_eq_div_pow]
  omega

theorem pteValid_toNat (e : Word) : (pteValid e).toNat = e.toNat % 2 := by
  simp [pteValid]

theorem pteAccess_toNat (e : Word) : (pteAccess e).toNat = e.toNat / 2 % 2 := by
  simp [pteAccess, Nat.shiftRight_eq_div_pow]

theorem permission_notValid {e : Word} : permission e = .notValid ↔ e.toNat % 2 = 0 := by
  have h := pteValid_toNat e
  unfold permission
  split
  case isTrue hv => simp [hv] at h; simp; omega
  case isFalse hv =>
    have : (pteValid e).toNat ≠ 0 := fun hz => hv (BitVec.eq_of_toNat_eq hz)
    split <;> simp <;> omega

theorem permission_notAccessible {e : Word} : permission e = .notAccessible ↔ e.toNat % 4 = 1 := by
  have h := pteValid_toNat e
  have h' := pteAccess_toNat e
  unfold permission
  split
  case isTrue hv => simp [hv] at h; simp; omega
  case isFalse hv =>
    have : (pteValid e).toNat ≠ 0 := fun hz => hv (BitVec.eq_of_toNat_eq hz)
    split
    case isTrue ha => simp [ha] at h'; simp; omega
    case isFalse ha =>
      have : (pteAccess e).toNat ≠ 0 := fun hz => ha (BitVec.eq_of_toNat_eq hz)
      simp; omega

theorem permission_ok {e : Word} : permission e = .ok ↔ e.toNat % 4 = 3 := by
  have h := pteValid_toNat e
  have h' := pteAccess_toNat e
  unfold permission
  split
  case isTrue hv => simp [hv] at h; simp; omega
  case isFalse hv =>
    have : (pteValid e).toNat ≠ 0 := fun hz => hv (BitVec.eq_of_toNat_eq hz)
    split
    case isTrue ha => simp [ha] at h'; simp; omega
    case isFalse ha =>
      have : (pteAccess e).toNat ≠ 0 := fun hz => ha (BitVec.eq_of_toNat_eq hz)
      simp; omega

/-- The low half of a trace record is the entry without its reserved bits. -/
theorem traceEntry_toNat (vpn e : Word) :
    (traceEntry vpn e).toNat = vpn.toNat * 2 ^ 32 + (e.toNat / 2 ^ 12 * 2 ^ 12 + e.toNat % 4) := by
  have h2 := toNat_juxtapose (pteAccess e) (pteValid e)
  have h12 := toNat_juxtapose (0 : BitVec 10) (pteAccess e ++ pteValid e : BitVec 2)
  have h32 := toNat_juxtapose (ptePfn e) ((0 : BitVec 10) ++ (pteAccess e ++ pteValid e : BitVec 2) : BitVec 12)
  have h64 := toNat_juxtapose vpn
    (ptePfn e ++ ((0 : BitVec 10) ++ (pteAccess e ++ pteValid e : BitVec 2) : BitVec 12) : BitVec 32)
  have hp := ptePfn_toNat e
  have ha := pteAccess_toNat e
  have hv := pteValid_toNat e
  refine h64.trans ?_
  rw [h32, h12, h2, hp, ha, hv]
  have : (0 : BitVec 10).toNat = 0 := rfl
  omega

theorem traceNoEntry_toNat (vpn : Word) : (traceNoEntry vpn).toNat = vpn.toNat * 2 ^ 32 + 4 := toNat_juxtapose vpn _

/-- INIT's word as a number (41_table_alloc_init.md R137). -/
theorem initWord_toNat (i : Nat) :
    (initWord i).toNat = (2 * i) % 2 ^ 20 * 2 ^ 12 + (if i % 4 = 0 then 1 else 3) := by
  have hs : (shl (BitVec.ofNat 32 ((2 * i) % 2 ^ 20)) 12).toNat = 2 ^ 12 * ((2 * i) % 2 ^ 20) := by
    simp only [shl, BitVec.toNat_shiftLeft, BitVec.toNat_ofNat, Nat.shiftLeft_eq]
    omega
  have hf : (initFlags i).toNat = if i % 4 = 0 then 1 else 3 := by unfold initFlags; split <;> rfl
  have hlt : (if i % 4 = 0 then 1 else 3) < 2 ^ 12 := by split <;> decide
  rw [initWord, BitVec.toNat_or, hs, hf, ← Nat.two_pow_add_eq_or_of_lt hlt]
  omega

end Machine
end Sys2Proof
end

