-- ==== Sys2Proof/Laws/Masks.lean ====
section
/-! SUPPORT. The two layout masks as arithmetic: the high mask rounds down to a multiple of 2^k, the low mask takes the remainder
(10_state.md R27, R30; 42_translate.md R151, R157, R159). -/

namespace Sys2Proof
namespace Machine

theorem lowMask_eq {k : Nat} {m : Word} (hm : m.toNat = 2 ^ k - 1) (v : Word) :
    (v &&& m).toNat = v.toNat % 2 ^ k := by
  rw [BitVec.toNat_and, hm, Nat.and_two_pow_sub_one_eq_mod]

/-- The high mask is the complement of the low one. -/
theorem highMask_eq_not {k : Nat} (hk : k ≤ 32) {hi lo : Word} (h : hi.toNat = 2 ^ 32 - 2 ^ k) (l : lo.toNat = 2 ^ k - 1) :
    hi = ~~~lo := by
  apply BitVec.eq_of_toNat_eq
  have : 2 ^ k ≤ 2 ^ 32 := Nat.pow_le_pow_right (by decide) hk
  have : 0 < 2 ^ k := Nat.two_pow_pos k
  rw [BitVec.toNat_not, h, l]
  omega

theorem masks_disjoint {lo : Word} : ~~~lo &&& lo = 0 := by
  ext i hi; simp

theorem masks_cover {lo : Word} : ~~~lo ||| lo = 0xFFFFFFFF := by
  have : (0xFFFFFFFF : Word) = BitVec.allOnes 32 := rfl
  rw [this]
  ext i hi; simp

theorem masks_split (lo v : Word) : (v &&& ~~~lo) ||| (v &&& lo) = v := by
  ext i hi
  simp only [BitVec.getElem_or, BitVec.getElem_and, BitVec.getElem_not]
  cases v[i] <;> cases lo[i] <;> rfl

theorem highMask_eq {k : Nat} (hk : k ≤ 32) {m : Word} (hm : m.toNat = 2 ^ 32 - 2 ^ k) (v : Word) :
    (v &&& m).toNat = v.toNat / 2 ^ k * 2 ^ k := by
  have hpos : 0 < 2 ^ k := Nat.two_pow_pos k
  have hle : 2 ^ k ≤ 2 ^ 32 := Nat.pow_le_pow_right (by decide) hk
  have hl : (BitVec.ofNat 32 (2 ^ k - 1)).toNat = 2 ^ k - 1 := by
    rw [BitVec.toNat_ofNat]; exact Nat.mod_eq_of_lt (by omega)
  have hlo := lowMask_eq hl v
  rw [highMask_eq_not hk hm hl]
  have hsplit := masks_split (BitVec.ofNat 32 (2 ^ k - 1)) v
  have hdis : (v &&& ~~~BitVec.ofNat 32 (2 ^ k - 1)) &&& (v &&& BitVec.ofNat 32 (2 ^ k - 1)) = 0 := by
    ext i hi
    simp only [BitVec.getElem_and, BitVec.getElem_not, BitVec.ofNat_eq_ofNat, BitVec.getElem_zero]
    cases v[i] <;> cases (BitVec.ofNat 32 (2 ^ k - 1))[i] <;> rfl
  have hadd := BitVec.add_eq_or_of_and_eq_zero _ _ hdis
  rw [hsplit] at hadd
  have hn := congrArg BitVec.toNat hadd
  rw [BitVec.toNat_add, hlo] at hn
  have hb := (v &&& ~~~BitVec.ofNat 32 (2 ^ k - 1)).isLt
  have hsub : (v &&& ~~~BitVec.ofNat 32 (2 ^ k - 1)).toNat ≤ v.toNat := by
    rw [BitVec.toNat_and]; exact Nat.and_le_left
  have hmod : v.toNat % 2 ^ k ≤ v.toNat := Nat.mod_le _ _
  have hv := v.isLt
  have hdm := Nat.div_add_mod v.toNat (2 ^ k)
  rw [Nat.mul_comm] at hdm
  generalize v.toNat / 2 ^ k * 2 ^ k = q at hdm ⊢
  generalize v.toNat % 2 ^ k = r at hn hmod hdm
  omega

/-- Without its reserved bits [11:2] an entry is its frame number and its two flags (30_encoding.md R92, R94). -/
theorem unreserved_toNat (e : Word) : (e &&& 0xFFFFF003).toNat = e.toNat / 2 ^ 12 * 2 ^ 12 + e.toNat % 4 := by
  have h : e &&& 0xFFFFF003 = (e &&& 0xFFFFF000) ||| (e &&& 0x3) := by
    have : (0xFFFFF003 : Word) = 0xFFFFF000 ||| 0x3 := rfl
    rw [this]; ext i hi; simp only [BitVec.getElem_and, BitVec.getElem_or]
    cases e[i] <;> simp
  have h1 : (e &&& 0xFFFFF000).toNat = e.toNat / 2 ^ 12 * 2 ^ 12 := highMask_eq (k := 12) (by decide) (by decide) e
  have h2 : (e &&& 0x3).toNat = e.toNat % 2 ^ 2 := lowMask_eq (k := 2) (by decide) e
  rw [h, BitVec.toNat_or, h1, h2, Nat.mul_comm]
  exact (Nat.two_pow_add_eq_or_of_lt (by omega) _).symm

/-- The reserved bits [11:2] of an entry (30_encoding.md R92, R93). -/
theorem reserved_toNat (e : Word) : (e &&& 0x00000FFC).toNat = e.toNat % 2 ^ 12 / 2 ^ 2 * 2 ^ 2 := by
  have h : e &&& 0x00000FFC = (e &&& 0x00000FFF) &&& 0xFFFFFFFC := by
    rw [BitVec.and_assoc]; rfl
  have h1 : (e &&& 0x00000FFF).toNat = e.toNat % 2 ^ 12 := lowMask_eq (k := 12) (by decide) e
  have h2 := highMask_eq (k := 2) (m := 0xFFFFFFFC) (by decide) (by decide) (e &&& 0x00000FFF)
  exact (congrArg BitVec.toNat h).trans (h2.trans (by rw [h1]))

end Machine
end Sys2Proof
end

