-- ==== Sys2Proof/Laws/PerInstr.lean ====
section
/-! SUPPORT. Facts about every instruction as syntax, one lemma a constructor. Family EncodeLegal: the word of an instruction carries
the opcode of 30_encoding.md R83 and is legal in the sense of R89. -/

namespace Sys2Proof
namespace Laws
namespace EncodeLegal

/-- The opcode field of an instruction's word is the instruction's opcode, and the word is legal (30_encoding.md R83, R89). -/
def Statement (i : Instr) : Prop :=
  opcodeField (encode i) = i.opcode ∧ wordLegal (encode i) = true

theorem layout (asb16 ps16 : BitVec 16) : Statement (.layout asb16 ps16) := by
  have h : opcodeField (encode (.layout asb16 ps16)) = 0x01 := by
    apply BitVec.eq_of_toNat_eq
    have := asb16.isLt
    have := ps16.isLt
    rw [opcodeField_toNat, encode_toNat]
    simp only [Instr.opcode, BitVec.toNat_ofNat, BitVec.ofNat_eq_ofNat]
    omega
  exact ⟨h, by simp [wordLegal, h]⟩

theorem alloc : Statement .alloc := ⟨by decide, by decide⟩

theorem init : Statement .init := ⟨by decide, by decide⟩

theorem xlate (va : Word) : Statement (.xlate va) := by
  have h : opcodeField (encode (.xlate va)) = 0x04 := by
    apply BitVec.eq_of_toNat_eq
    have := va.isLt
    rw [opcodeField_toNat, encode_toNat]
    simp only [Instr.opcode, BitVec.toNat_ofNat, BitVec.ofNat_eq_ofNat]
    omega
  exact ⟨h, by simp [wordLegal, h]⟩

end EncodeLegal
end Laws
end Sys2Proof
end

