-- ==== Sys2Proof/Laws/Step.lean ====
section
/-! SUPPORT. What a command and a step can do, said once. -/

namespace Sys2Proof
namespace Machine

/-- Every command that ends in a next state adds one response to the stream, with data only under XLATE and OK, and touches
neither the inputs nor the parameters. -/
theorem exec_response {i : Instr} {s t : State} (h : exec i s = .next t) :
    ∃ st data, t.responses = s.responses ++ [respWord st data] ∧ (data ≠ 0 → st = .ok ∧ ∃ va, i = .xlate va)
      ∧ t.inputs = s.inputs ∧ t.params = s.params := by
  cases i with
  | layout a p =>
    rcases execLayout_cases h with ⟨-, rfl⟩ | ⟨-, -, rfl⟩ | ⟨k, -, -, rfl⟩ <;> exact ⟨_, _, rfl, by simp, rfl, rfl⟩
  | alloc =>
    rcases execAlloc_cases h with ⟨-, rfl⟩ | ⟨-, -, -, rfl⟩ | ⟨-, -, -, rfl⟩ <;> exact ⟨_, _, rfl, by simp, rfl, rfl⟩
  | init =>
    rcases execInit_cases h with ⟨-, rfl⟩ | ⟨-, -, rfl⟩ <;> exact ⟨_, _, rfl, by simp, rfl, rfl⟩
  | xlate va =>
    rcases execXlate_cases h with ⟨-, rfl⟩ | ⟨-, -, rfl⟩ | ⟨-, -, -, rfl⟩
    · exact ⟨_, _, rfl, by simp, rfl, rfl⟩
    · exact ⟨.outOfRange, 0, by simp, by simp, by simp, by simp⟩
    · refine ⟨permission _, entryAnswer s va _, by simp; exact ⟨rfl, rfl⟩, ?_, by simp, by simp⟩
      intro hd
      exact ⟨by by_contra hc; simp [entryAnswer, hc] at hd, va, rfl⟩

/-- A step that ends in a next state did nothing (no input), reset the instance, ran a decoded command, or answered an
illegal word. -/
theorem step_cases {s t : State} (h : step s = .next t) :
    (s.inputs = [] ∧ t = s)
    ∨ (∃ rest, s.inputs = .reset :: rest ∧ t = hardwareReset (s.withInputs rest))
    ∨ (∃ w rest i, s.inputs = .command w :: rest ∧ decode w = .ok i ∧ exec i (s.withInputs rest) = .next t)
    ∨ (∃ w rest e, s.inputs = .command w :: rest ∧ decode w = .error e
        ∧ t = (s.withInputs rest).pushResponse (respWord .illegalCommand 0)) := by
  unfold step at h
  split at h
  case h_1 e => cases h; exact .inl ⟨e, rfl⟩
  case h_2 rest e => cases h; exact .inr (.inl ⟨rest, e, rfl⟩)
  case h_3 w rest e =>
    unfold runCommand at h
    cases hd : decode w with
    | ok i => simp only [hd] at h; exact .inr (.inr (.inl ⟨w, rest, i, e, hd, h⟩))
    | error f => simp only [hd] at h; cases h; exact .inr (.inr (.inr ⟨w, rest, f, e, hd, rfl⟩))

end Machine
end Sys2Proof
end

