-- ==== Sys2Proof/Tests/Slice0.lean ====
section
/-! SUPPORT. Tests by evaluation. Expected results are the spec's: 30_encoding.md section 9 and 95_test_vectors.md (T<n> and P<n>
are its vectors and programs). After them one witness theorem for each statement with hypotheses: states and operands that
meet them together, clause by clause, at the ends of their ranges. -/

namespace Sys2Proof
namespace Tests

open Machine

/-! ### Small states -/

/-- After LAYOUT `a`, `p` with `p = 2 ^ k`. -/
def laid (a p : BitVec 16) (k : Fin 13) : State := State.reset.latchLayout a p (computeLayout k)

/-- After ALLOC on `laid`. -/
def alloced (a p : BitVec 16) (k : Fin 13) : State := (laid a p k).allocateTable (2 ^ (a.toNat - k.val))

/-- After INIT on `alloced`. -/
def readied (a p : BitVec 16) (k : Fin 13) : State := (alloced a p k).fillTable

/-- A state with another TABLE_CAP. -/
def capped (s : State) (cap : BitVec 33) : State := { s with params := { s.params with tableCap := cap } }

/-- A failed instance: LAYOUT 16, 4096 and ALLOC under TABLE_CAP = 15. -/
def failedState : State := (capped (laid 16 4096 12) 15).setPhase .failed

/-- A state in which the requester presents one command word next. -/
def presents (s : State) (w : CommandWord) : State := s.withInputs [.command w]

/-- The last response of a result. -/
def answer (r : Result) : Option ResponseWord := lastResponse r

/-- The last trace record of a result. -/
def lastTrace (r : Result) : Option TraceWord :=
  match r with
  | .next t => t.traces.getLast?
  | _ => none

/-- The phase a result leaves. -/
def phaseAfter (r : Result) : Option Phase :=
  match r with
  | .next t => some t.phase
  | _ => none

/-! ### Ill-formed words are refused (R89) -/

/-- T12, T13, T16. -/
theorem test_illegal_unknown_opcode :
    wordLegal 0x0000000000 = false ∧ wordLegal 0x0500000000 = false ∧ wordLegal 0xFFFFFFFFFF = false := by decide

/-- T6. -/
theorem test_illegal_alloc_operand :
    wordLegal 0x0200000001 = false ∧ decode 0x0200000001 = .error (.operandNotZero 0x02) := ⟨by decide, rfl⟩

/-- P4 line 24. -/
theorem test_illegal_init_operand :
    wordLegal 0x0380000000 = false ∧ decode 0x0380000000 = .error (.operandNotZero 0x03) := ⟨by decide, rfl⟩

/-- As T15: all eight opcode bits are compared. -/
theorem test_every_opcode_bit_compared : decode 0x8400000000 = .error (.unknownOpcode 0x84) := rfl

/-! ### Words written out from 30_encoding.md -/

/-- LAYOUT 16, 256: OPC 0x01, asb16 0x0010, ps16 0x0100. -/
theorem test_decode_layout :
    decode 0b00000001_0000000000010000_0000000100000000 = .ok (.layout 16 256) := rfl

theorem test_decode_alloc : decode 0b00000010_00000000000000000000000000000000 = .ok .alloc := rfl

theorem test_decode_init : decode 0b00000011_00000000000000000000000000000000 = .ok .init := rfl

/-- XLATE 0x80000001: the first and the last operand bit. -/
theorem test_decode_xlate :
    decode 0b00000100_10000000000000000000000000000001 = .ok (.xlate 0x80000001) := rfl

/-- T1, T5, T8 and P1 line 8: the encoder's words. -/
theorem test_encode_words :
    encode (.layout 32 4096) = 0x0100201000 ∧ encode .alloc = 0x0200000000 ∧ encode .init = 0x0300000000
      ∧ encode (.xlate 0x7FFFFFFF) = 0x047FFFFFFF := by decide

theorem test_table_word : decodeTableWord 40 0x0100100100 = some (.layout 16 256) := rfl

/-! ### LAYOUT -/

/-- T31. -/
theorem test_layout_2048 :
    (computeLayout 11).vpnMask = 0xFFFFF800 ∧ (computeLayout 11).offsetMask = 0x7FF ∧ (computeLayout 11).shift = 11
      ∧ configExponent 32 2048 = some 11 := by decide

/-- T41, T48, T53: rejected, and the phase stays. -/
theorem test_layout_rejects :
    answer (exec (.layout 33 4096) State.reset) = some 0x0400000000
      ∧ answer (exec (.layout 32 3) State.reset) = some 0x0400000000
      ∧ phaseAfter (exec (.layout 11 4096) State.reset) = some .reset := by decide

/-! ### ALLOC -/

/-- T76 and T75: the count 16 against TABLE_CAP 15 and 16. -/
theorem test_alloc_capacity :
    answer (exec .alloc (capped (laid 16 4096 12) 15)) = some 0x0500000000
      ∧ phaseAfter (exec .alloc (capped (laid 16 4096 12) 15)) = some .failed
      ∧ phaseAfter (exec .alloc (capped (laid 16 4096 12) 16)) = some .allocated := by decide

/-- T61: the count of (32, 1) is 2^32, not 0. -/
theorem test_alloc_count_32_1 : (alloced 32 1 0).numPtes = 0x100000000 := by decide

/-! ### INIT -/

/-- T89: the table of (16, 4096). -/
theorem test_init_table :
    (List.range 16).map (readied 16 4096 12).entry
      = [0x00000001, 0x00002003, 0x00004003, 0x00006003, 0x00008001, 0x0000A003, 0x0000C003, 0x0000E003,
         0, 0, 0, 0, 0, 0, 0, 0] := by decide

/-- T92: the frame number wraps at index 2^19. -/
theorem test_init_wraps :
    (readied 32 2048 11).entry 0x7FFFF = 0xFFFFE003 ∧ (readied 32 2048 11).entry 0x80000 = 0x00000001
      ∧ (readied 32 2048 11).entry 0x80001 = 0x00002003 := by decide

/-! ### XLATE -/

/-- P6 line 5: PFN_SHIFT is 11, not 12, with the trace record. -/
theorem test_xlate_2048 :
    answer (exec (.xlate 0x00000FFF) (readied 32 2048 11)) = some 0x00000017FF
      ∧ lastTrace (exec (.xlate 0x00000FFF) (readied 32 2048 11)) = some 0x0000000100002003 := by decide

/-- P2 lines 8 and 12: valid but not accessible; out of range by one page, with its record. -/
theorem test_xlate_faults :
    answer (exec (.xlate 0x00004000) (readied 16 4096 12)) = some 0x0200000000
      ∧ answer (exec (.xlate 0x00010000) (readied 16 4096 12)) = some 0x0300000000
      ∧ lastTrace (exec (.xlate 0x00010000) (readied 16 4096 12)) = some 0x0000001000000004 := by decide

/-! ### Steps -/

/-- T143: IllegalCommand comes before BadSequence. -/
theorem test_step_illegal :
    answer (step (presents State.reset 0x0200000001)) = some 0x0700000000
      ∧ answer (step (presents State.reset 0x0200000000)) = some 0x0600000000 := by decide

/-- The first command after reset runs: P1 line 1. -/
theorem test_step_first_command :
    answer (step (State.reset.withFetchWord 40 0x0100201000)) = some 0
      ∧ phaseAfter (step (State.reset.withFetchWord 40 0x0100201000)) = some .laidOut := by decide

/-! ### Witnesses: the hypotheses of each statement can be met -/

/-! The parts the witnesses are put together from. -/

theorem inv_reset : State.reset.Inv := by decide
theorem inv_laid_max : (laid 32 1 0).Inv := by decide
theorem inv_laid_min : (laid 12 4096 12).Inv := by decide
theorem inv_laid_capped : (capped (laid 16 4096 12) 15).Inv := by decide
theorem inv_alloced_max : (alloced 32 1 0).Inv := by decide
theorem inv_alloced_min : (alloced 12 4096 12).Inv := by decide
theorem inv_alloced_16 : (alloced 16 4096 12).Inv := by decide
theorem inv_alloced_4 : (alloced 4 1 0).Inv := by decide
theorem inv_ready_max : (readied 32 1 0).Inv := by decide
theorem inv_ready_min : (readied 12 4096 12).Inv := by decide
theorem inv_ready_two : (readied 9 256 8).Inv := by decide
theorem inv_ready_16 : (readied 16 4096 12).Inv := by decide
theorem inv_ready_4 : (readied 4 1 0).Inv := by decide
theorem inv_ready_a : (readied 32 4096 12).Inv := by decide
theorem inv_ready_wrap : (readied 32 2048 11).Inv := by decide
theorem inv_failed : failedState.Inv := by decide

theorem valid_32_4096 : ValidConfig 32 4096 12 := by decide
theorem valid_12_4096 : ValidConfig 12 4096 12 := by decide
theorem valid_32_1 : ValidConfig 32 1 0 := by decide
theorem valid_1_1 : ValidConfig 1 1 0 := by decide
theorem valid_16_4096 : ValidConfig 16 4096 12 := by decide

theorem not_valid_33_4096 : ¬ ∃ k, ValidConfig 33 4096 k := fun ⟨_, h, _⟩ => absurd h.2 (by decide)
theorem not_valid_0_1 : ¬ ∃ k, ValidConfig 0 1 k := fun ⟨_, h, _⟩ => absurd h.1 (by decide)

/-- A table of 16 entries with one word INIT never writes: VALID 0 and ACCESS 1 (T111). -/
def oddTable : State := { readied 16 4096 12 with tbl := (readied 16 4096 12).tbl.write 16 9 0xFFFFFFFE }

theorem oddTable_wf : oddTable.tbl.wf oddTable.numPtes.toNat := by decide

/-! One witness per statement with hypotheses. -/

theorem witness_DecodeThenEncode :
    decode 0x0100201000 = .ok (.layout 32 4096) ∧ decode 0x0200000000 = .ok .alloc
      ∧ decode 0x0300000000 = .ok .init ∧ decode 0x04FFFFFFFF = .ok (.xlate 0xFFFFFFFF) := ⟨rfl, rfl, rfl, rfl⟩

theorem witness_DecodeByFields :
    (0x01FFFFFFFF : CommandWord).toNat / 2 ^ 32 = 1
      ∧ ((0x0200000000 : CommandWord).toNat / 2 ^ 32 = 2 ∧ (0x0200000000 : CommandWord).toNat % 2 ^ 32 = 0)
      ∧ ((0x0300000000 : CommandWord).toNat / 2 ^ 32 = 3 ∧ (0x0300000000 : CommandWord).toNat % 2 ^ 32 = 0)
      ∧ (0x04FFFFFFFF : CommandWord).toNat / 2 ^ 32 = 4
      ∧ (0x00FFFFFFFF : CommandWord).toNat / 2 ^ 32 = 0
      ∧ 4 < (0x0500000000 : CommandWord).toNat / 2 ^ 32
      ∧ ((0x0200000001 : CommandWord).toNat / 2 ^ 32 = 2 ∧ (0x0200000001 : CommandWord).toNat % 2 ^ 32 ≠ 0)
      ∧ ((0x0380000000 : CommandWord).toNat / 2 ^ 32 = 3 ∧ (0x0380000000 : CommandWord).toNat % 2 ^ 32 ≠ 0) := by
  decide

theorem witness_IllegalWordChangesNothing :
    (presents failedState 0x0900000000).inputs = .command 0x0900000000 :: []
      ∧ decode 0x0900000000 = .error (.unknownOpcode 0x09)
      ∧ (presents State.reset 0x0200000001).inputs = .command 0x0200000001 :: []
      ∧ decode 0x0200000001 = .error (.operandNotZero 0x02) := ⟨rfl, rfl, rfl, rfl⟩

theorem witness_StepRunsDecodedCommand :
    (presents State.reset 0x0100201000).inputs = .command 0x0100201000 :: []
      ∧ decode 0x0100201000 = .ok (.layout 32 4096) ∧ State.reset.inputs = [] := ⟨rfl, rfl, rfl⟩

theorem witness_ResetReleasesTable :
    ((readied 16 4096 12).withInputs [.reset, .command 0]).inputs = .reset :: [.command 0] := rfl

theorem witness_OneResponsePerCommand :
    (∃ t, (presents (readied 16 4096 12) 0x0400001234).inputs = .command 0x0400001234 :: []
        ∧ step (presents (readied 16 4096 12) 0x0400001234) = .next t
        ∧ t.responses = [respWord .ok 0x00002234] ∧ (0x00002234 : Word) ≠ 0)
      ∧ ∃ t, step (presents State.reset 0) = .next t := ⟨⟨_, rfl, rfl, rfl, by decide⟩, _, rfl⟩

theorem witness_StepKeepsResponsesLegal :
    ∃ s t : State, s.responses = [0x0700000000] ∧ s.ResponsesOk ∧ step s = .next t :=
  ⟨(presents State.reset 0x0100201000).pushResponse (respWord .illegalCommand 0), _, rfl,
    fun _ h => ⟨.illegalCommand, 0, by simpa [presents, State.withInputs, State.pushResponse, State.reset] using h, fun _ => rfl⟩, rfl⟩

theorem witness_LayoutOutcome :
    (laid 12 4096 12).phase ≠ .reset ∧ State.reset.phase = .reset
      ∧ (¬ ∃ k, ValidConfig 33 4096 k) ∧ (¬ ∃ k, ValidConfig 0 1 k)
      ∧ ValidConfig 32 4096 12 ∧ ValidConfig 12 4096 12 ∧ ValidConfig 1 1 0 :=
  ⟨by decide, rfl, not_valid_33_4096, not_valid_0_1, valid_32_4096, valid_12_4096, valid_1_1⟩

theorem witness_ValidationIsFourConditions :
    validConfig 33 1 = false ∧ validConfig 0 1 = false ∧ validConfig 32 0 = false ∧ validConfig 32 8192 = false
      ∧ validConfig 32 3 = false ∧ validConfig 11 4096 = false ∧ State.reset.phase = .reset := by decide

theorem witness_LayoutMasksSplitAddresses :
    State.reset.phase = .reset ∧ ValidConfig 32 1 0 ∧ ValidConfig 12 4096 12 := ⟨rfl, valid_32_1, valid_12_4096⟩

theorem witness_LayoutDependsOnPageSizeOnly :
    State.reset.phase = .reset ∧ (capped State.reset 1).phase = .reset
      ∧ ValidConfig 32 4096 12 ∧ ValidConfig 12 4096 12 := ⟨rfl, rfl, valid_32_4096, valid_12_4096⟩

theorem witness_PageSizeOneLayout :
    State.reset.phase = .reset ∧ (1 ≤ (1 : BitVec 16).toNat ∧ (1 : BitVec 16).toNat ≤ 32)
      ∧ (1 ≤ (32 : BitVec 16).toNat ∧ (32 : BitVec 16).toNat ≤ 32) := by decide

theorem witness_LayoutFrame :
    (∃ t, exec (.layout 32 4096) State.reset = .next t ∧ t.phase = .laidOut)
      ∧ (∃ t, exec (.layout 33 4096) State.reset = .next t ∧ t.phase = .reset)
      ∧ ∃ t, exec (.layout 32 4096) (readied 16 4096 12) = .next t ∧ t.phase = .ready :=
  ⟨⟨_, rfl, rfl⟩, ⟨_, rfl, rfl⟩, ⟨_, rfl, rfl⟩⟩

theorem witness_AllocOutcome :
    State.reset.phase ≠ .laidOut
      ∧ ((capped (laid 16 4096 12) 15).phase = .laidOut
        ∧ (capped (laid 16 4096 12) 15).psb.toNat ≤ (capped (laid 16 4096 12) 15).asb.toNat
        ∧ (capped (laid 16 4096 12) 15).params.tableCap.toNat
            < 2 ^ ((capped (laid 16 4096 12) 15).asb.toNat - (capped (laid 16 4096 12) 15).psb.toNat))
      ∧ ((laid 32 1 0).phase = .laidOut ∧ (laid 32 1 0).psb.toNat ≤ (laid 32 1 0).asb.toNat
        ∧ 2 ^ ((laid 32 1 0).asb.toNat - (laid 32 1 0).psb.toNat) ≤ (laid 32 1 0).params.tableCap.toNat) := by decide

theorem witness_AllocZeroFills :
    (∃ t, (laid 32 1 0).phase = .laidOut ∧ exec .alloc (laid 32 1 0) = .next t
        ∧ t.responses = (laid 32 1 0).responses ++ [respWord .ok 0] ∧ 0xFFFFFFFF < t.numPtes.toNat)
      ∧ ∃ t, exec .alloc (laid 12 4096 12) = .next t
        ∧ t.responses = (laid 12 4096 12).responses ++ [respWord .ok 0] ∧ 0 < t.numPtes.toNat :=
  ⟨⟨_, rfl, rfl, rfl, by decide⟩, ⟨_, rfl, rfl, by decide⟩⟩

theorem witness_EntryCountExact :
    ((laid 32 1 0).Inv ∧ (laid 32 1 0).phase = .laidOut
        ∧ 2 ^ ((laid 32 1 0).asb.toNat - (laid 32 1 0).psb.toNat) ≤ (laid 32 1 0).params.tableCap.toNat)
      ∧ ((laid 12 4096 12).Inv ∧ (laid 12 4096 12).phase = .laidOut
        ∧ 2 ^ ((laid 12 4096 12).asb.toNat - (laid 12 4096 12).psb.toNat) ≤ (laid 12 4096 12).params.tableCap.toNat) :=
  ⟨⟨inv_laid_max, rfl, by decide⟩, ⟨inv_laid_min, rfl, by decide⟩⟩

theorem witness_AllocFailureIsTerminal :
    ((capped (laid 16 4096 12) 15).Inv ∧ (capped (laid 16 4096 12) 15).phase = .laidOut
        ∧ (capped (laid 16 4096 12) 15).params.tableCap.toNat
            < 2 ^ ((capped (laid 16 4096 12) 15).asb.toNat - (capped (laid 16 4096 12) 15).psb.toNat))
      ∧ failedState.phase = .failed := ⟨⟨inv_laid_capped, rfl, by decide⟩, rfl⟩

theorem witness_AllocFrame :
    (∃ t, exec .alloc (capped (laid 16 4096 12) 15) = .next t
        ∧ t.responses ≠ (capped (laid 16 4096 12) 15).responses ++ [respWord .ok 0])
      ∧ ∃ t, exec .alloc (laid 12 4096 12) = .next t ∧ t.responses = (laid 12 4096 12).responses ++ [respWord .ok 0]
        ∧ ∀ i < t.numPtes.toNat, 4 ≠ pteOffset i :=
  ⟨⟨_, rfl, by decide⟩, ⟨_, rfl, rfl, by decide⟩⟩

/-- ASB below PSB, which no run reaches. -/
def narrowState : State := { laid 12 4096 12 with asb := 11 }

theorem witness_AllocMatchesLoop :
    ((laid 32 1 0).tbl.wf (laid 32 1 0).numPtes.toNat ∧ ∃ t, exec .alloc (laid 32 1 0) = .next t)
      ∧ (narrowState.tbl.wf narrowState.numPtes.toNat ∧ exec .alloc narrowState = .fault .noEntryCount) :=
  ⟨⟨by decide, _, rfl⟩, by decide, rfl⟩

theorem witness_InitOutcome :
    (laid 12 4096 12).phase ≠ .allocated
      ∧ ((alloced 32 1 0).phase = .allocated ∧ (alloced 32 1 0).ptbrOwn = true
        ∧ 0xFFFFFFFF < (alloced 32 1 0).numPtes.toNat)
      ∧ ((alloced 12 4096 12).phase = .allocated ∧ (alloced 12 4096 12).ptbrOwn = true
        ∧ 0 < (alloced 12 4096 12).numPtes.toNat)
      ∧ (alloced 16 4096 12).Inv := ⟨by decide, by decide, by decide, inv_alloced_16⟩

theorem witness_InitializedTable :
    ((alloced 16 4096 12).Inv ∧ (alloced 16 4096 12).phase = .allocated)
      ∧ ((alloced 4 1 0).Inv ∧ (alloced 4 1 0).phase = .allocated
        ∧ (alloced 4 1 0).numPtes = (alloced 16 4096 12).numPtes ∧ ∃ t, exec .init (alloced 4 1 0) = .next t)
      ∧ (7 < (alloced 16 4096 12).numPtes.toNat / 2 ∧ 7 % 4 ≠ 0 ∧ 4 % 4 = 0
        ∧ (alloced 16 4096 12).numPtes.toNat / 2 ≤ 8 ∧ 15 < (alloced 16 4096 12).numPtes.toNat) :=
  ⟨⟨inv_alloced_16, rfl⟩, ⟨inv_alloced_4, rfl, by decide, _, rfl⟩, by decide⟩

theorem witness_InitFrame :
    (∃ t, exec .init (alloced 16 4096 12) = .next t
        ∧ ∀ i < (alloced 16 4096 12).numPtes.toNat / 2, 32 ≠ pteOffset i)
      ∧ ∃ t, exec .init (readied 16 4096 12) = .next t ∧ (readied 16 4096 12).phase ≠ .allocated :=
  ⟨⟨_, rfl, by decide⟩, ⟨_, rfl, by decide⟩⟩

theorem witness_InitMatchesLoop :
    (alloced 32 1 0).tbl.wf (alloced 32 1 0).numPtes.toNat ∧ ∃ t, exec .init (alloced 32 1 0) = .next t :=
  ⟨by decide, _, rfl⟩

theorem witness_FrameFieldWraps :
    ((readied 32 2048 11).Inv ∧ (readied 32 2048 11).phase = .ready
        ∧ 0x7FFFF + 2 ^ 19 < (readied 32 2048 11).numPtes.toNat / 2)
      ∧ ((readied 32 4096 12).Inv ∧ (readied 32 4096 12).phase = .ready
        ∧ (readied 32 4096 12).numPtes.toNat ≤ 2 ^ 20 ∧ 0x7FFFF < (readied 32 4096 12).numPtes.toNat / 2) :=
  ⟨⟨inv_ready_wrap, rfl, by decide⟩, ⟨inv_ready_a, rfl, by decide⟩⟩

theorem witness_OneEntryTable :
    ((readied 12 4096 12).Inv ∧ (readied 12 4096 12).phase = .ready ∧ (readied 12 4096 12).numPtes = 1
        ∧ extractVpn (readied 12 4096 12) 0xFFF = 0 ∧ extractVpn (readied 12 4096 12) 0x1000 ≠ 0)
      ∧ ((readied 9 256 8).Inv ∧ (readied 9 256 8).phase = .ready ∧ (readied 9 256 8).numPtes = 2) :=
  ⟨⟨inv_ready_min, rfl, by decide, by decide, by decide⟩, ⟨inv_ready_two, rfl, by decide⟩⟩

theorem witness_XlateOutcome :
    (State.reset.phase ≠ .ready ∧ oddTable.phase = .ready ∧ oddTable.ptbrOwn = true)
      ∧ (((0x00010000 : Word) &&& oddTable.vpnMask) >>> oddTable.shift.toNat = 16 ∧ oddTable.numPtes.toNat ≤ 16)
      ∧ (((0x0000FFFF : Word) &&& oddTable.vpnMask) >>> oddTable.shift.toNat = 15 ∧ 15 < oddTable.numPtes.toNat
        ∧ (oddTable.entry 15).toNat % 2 = 0 ∧ (oddTable.entry 9).toNat % 2 = 0)
      ∧ ((oddTable.entry 4).toNat % 4 = 1 ∧ (oddTable.entry 7).toNat % 4 = 3) := by decide

theorem witness_XlateClosedForm :
    ((readied 16 4096 12).Inv ∧ (readied 16 4096 12).phase = .ready ∧ (readied 16 4096 12).psb.toNat = 12
        ∧ (readied 16 4096 12).asb.toNat = 16)
      ∧ (2 ^ 16 ≤ (0x00010000 : Word).toNat ∧ (0x00008000 : Word).toNat / 2 ^ 12 = 8
        ∧ (0x0000FFFF : Word).toNat / 2 ^ 12 = 15 ∧ (0x00007FFF : Word).toNat / 2 ^ 12 = 7
        ∧ (0x00004000 : Word).toNat / 2 ^ 12 = 4)
      ∧ ((readied 32 1 0).Inv ∧ (readied 32 1 0).phase = .ready ∧ (readied 32 1 0).asb.toNat = 32
        ∧ (readied 32 1 0).psb.toNat = 0) :=
  ⟨⟨inv_ready_16, rfl, rfl, rfl⟩, by decide, ⟨inv_ready_max, rfl, rfl, rfl⟩⟩

theorem witness_OutOfRangeBeyondAddressSpace :
    ((readied 12 4096 12).LayoutOk ∧ (readied 12 4096 12).TableOk)
      ∧ ((readied 32 1 0).LayoutOk ∧ (readied 32 1 0).TableOk ∧ (readied 32 1 0).asb = 32) := by decide

theorem witness_ReconstructionIsSum : (readied 32 4096 12).LayoutOk ∧ (readied 4 1 0).LayoutOk := by decide

theorem witness_ReservedBitsIgnored :
    (∃ (s t : State) (m : Memory), s.phase = .ready ∧ m ≠ s.tbl
        ∧ (∀ i, m.read s.numPtes.toNat i &&& 0xFFFFF003 = s.entry i &&& 0xFFFFF003)
        ∧ exec (.xlate 0) s = .next t)
      ∧ ((readied 16 4096 12).Inv ∧ (readied 16 4096 12).phase = .ready ∧ 15 < (readied 16 4096 12).numPtes.toNat) := by
  refine ⟨⟨(alloced 16 4096 12).setPhase .ready, _, { fill := .zero, cells := [(0, 0xFFC)] }, rfl, by decide,
    fun i => ?_, rfl⟩, inv_ready_16, rfl, by decide⟩
  by_cases h : i = 0
  · subst h
    decide
  · simp [Memory.read, lookupCell, h, State.entry, State.setPhase, alloced, State.allocateTable, Memory.zeroed,
      Memory.unlisted]

theorem witness_XlateIsPure :
    (∃ t, exec (.xlate 0x1000) (readied 16 4096 12) = .next t)
      ∧ ((readied 16 4096 12).Inv ∧ (readied 16 4096 12).phase = .ready
        ∧ (capped (readied 16 4096 12) 16).Inv ∧ (capped (readied 16 4096 12) 16).phase = .ready
        ∧ (readied 16 4096 12).asb = (capped (readied 16 4096 12) 16).asb
        ∧ (readied 16 4096 12).psb = (capped (readied 16 4096 12) 16).psb) :=
  ⟨⟨_, rfl⟩, inv_ready_16, rfl, by decide, rfl, rfl, rfl⟩

theorem witness_TranslationsDoNotInteract : (readied 16 4096 12).Inv ∧ (readied 16 4096 12).phase = .ready :=
  ⟨inv_ready_16, rfl⟩

theorem witness_TraceEmission :
    (∃ t, exec (.xlate 0x1000) (readied 16 4096 12) = .next t ∧ (readied 16 4096 12).phase = .ready
        ∧ (readied 16 4096 12).params.traceEn = true)
      ∧ (∃ t, exec (.xlate 0) State.reset = .next t ∧ State.reset.phase ≠ .ready)
      ∧ (∃ t, exec .alloc (laid 12 4096 12) = .next t ∧ ∀ va, Instr.alloc ≠ .xlate va)
      ∧ ∃ t, exec (.xlate 0) ((readied 16 4096 12).withTrace false []) = .next t
        ∧ ((readied 16 4096 12).withTrace false []).params.traceEn = false :=
  ⟨⟨_, rfl, rfl, rfl⟩, ⟨_, rfl, by decide⟩, ⟨_, rfl, fun _ => nofun⟩, ⟨_, rfl, rfl⟩⟩

theorem witness_TraceDoesNotReachResponses : ∃ t, exec (.xlate 0x1000) (readied 16 4096 12) = .next t := ⟨_, rfl⟩

theorem witness_PageSizeOneTranslation :
    (readied 4 1 0).Inv ∧ (readied 4 1 0).phase = .ready ∧ (readied 4 1 0).psb = 0
      ∧ (7 : Word).toNat < (readied 4 1 0).numPtes.toNat / 2 ∧ (7 : Word).toNat % 4 ≠ 0 :=
  ⟨inv_ready_4, rfl, rfl, by decide, by decide⟩

theorem witness_XlateFrame :
    (∃ t, exec (.xlate 0x00010000) (readied 16 4096 12) = .next t) ∧ ∃ t, exec (.xlate 0) State.reset = .next t :=
  ⟨⟨_, rfl⟩, _, rfl⟩

theorem witness_BadSequenceExactly :
    State.reset.phase ≠ allowedPhase .init
      ∧ ∃ t, (laid 12 4096 12).phase = allowedPhase .alloc ∧ exec .alloc (laid 12 4096 12) = .next t
        ∧ t.responses = (laid 12 4096 12).responses ++ [respWord .ok 0] := ⟨by decide, _, rfl, rfl, rfl⟩

/-- The hypotheses of the table's cells: a state of the invariant in which a command word is presented. -/
def cellReached (s : State) (w : CommandWord) : Prop :=
  (presents s w).Inv ∧ (presents s w).inputs = .command w :: []

/-- One cell of each kind: LAYOUT valid and invalid, ALLOC within and above TABLE_CAP, INIT, XLATE, an illegal word, commands
out of phase (R243), and a reset. -/
theorem witness_PhaseTransitions :
    (cellReached State.reset 0x0100201000 ∧ cellReached State.reset 0x0100211000)
      ∧ (cellReached (laid 32 1 0) 0x0200000000 ∧ cellReached (capped (laid 16 4096 12) 15) 0x0200000000)
      ∧ (cellReached (alloced 12 4096 12) 0x0300000000 ∧ cellReached (readied 16 4096 12) 0x0400001000)
      ∧ (cellReached failedState 0x0900000000 ∧ cellReached failedState 0x0100101000
        ∧ cellReached (readied 16 4096 12) 0x0300000000)
      ∧ (failedState.withInputs [.reset]).inputs = .reset :: [] :=
  ⟨⟨⟨by decide, rfl⟩, by decide, rfl⟩, ⟨⟨by decide, rfl⟩, by decide, rfl⟩, ⟨⟨by decide, rfl⟩, by decide, rfl⟩,
    ⟨⟨by decide, rfl⟩, ⟨by decide, rfl⟩, by decide, rfl⟩, rfl⟩

theorem witness_OnlyAllocFailureWritesState :
    (∃ t, exec .alloc (capped (laid 16 4096 12) 15) = .next t
        ∧ t.responses = (capped (laid 16 4096 12) 15).responses ++ [respWord .allocFailure 0])
      ∧ ∃ t, exec (.xlate 0x00010000) (readied 16 4096 12) = .next t
        ∧ t.responses = (readied 16 4096 12).responses ++ [respWord .outOfRange 0] := ⟨⟨_, rfl, rfl⟩, _, rfl, rfl⟩

theorem witness_PhaseNeverMovesBack :
    (∃ t, step (failedState.withInputs [.reset]) = .next t
        ∧ (failedState.withInputs [.reset]).inputs.head? = some .reset)
      ∧ ∃ t, step (presents (laid 12 4096 12) 0x0200000000) = .next t
        ∧ (presents (laid 12 4096 12) 0x0200000000).inputs.head? ≠ some .reset := ⟨⟨_, rfl, rfl⟩, _, rfl, by decide⟩

theorem witness_ConstructedStateImmutable :
    (∃ t, step (presents (alloced 16 4096 12) 0x0300000000) = .next t
        ∧ (presents (alloced 16 4096 12) 0x0300000000).inputs.head? ≠ some .reset
        ∧ (presents (alloced 16 4096 12) 0x0300000000).phase = .allocated)
      ∧ ∃ t, step (presents (readied 16 4096 12) 0x0300000000) = .next t
        ∧ (presents (readied 16 4096 12) 0x0300000000).inputs.head? ≠ some .reset
        ∧ (presents (readied 16 4096 12) 0x0300000000).phase = .ready
        ∧ t.responses = (presents (readied 16 4096 12) 0x0300000000).responses ++ [respWord .badSequence 0] :=
  ⟨⟨_, rfl, by decide, rfl⟩, ⟨_, rfl, by decide, rfl, rfl⟩⟩

theorem witness_FaultLeavesNextCommandAlone :
    ∃ t u, exec (.xlate 0) (readied 16 4096 12) = .next t
      ∧ t.responses = (readied 16 4096 12).responses ++ [respWord .notAccessible 0]
      ∧ exec (.xlate 0x1000) (readied 16 4096 12) = .next u := ⟨_, _, rfl, rfl, rfl⟩

theorem witness_StopsNameTheirCause :
    exec .alloc narrowState = .fault .noEntryCount
      ∧ exec .init ((laid 12 4096 12).setPhase .allocated) = .fault .tableNotOwned
      ∧ exec (.xlate 0) ({ readied 16 4096 12 with ptbrOwn := false }) = .fault .tableNotOwned := ⟨rfl, rfl, rfl⟩

theorem witness_ConstructOutcome :
    (State.reset.Inv ∧ State.reset.phase = .reset ∧ ValidConfig 32 1 0
        ∧ 2 ^ ((32 : BitVec 16).toNat - 0) ≤ State.reset.params.tableCap.toNat)
      ∧ (¬ ∃ k, ValidConfig 33 4096 k)
      ∧ ((capped State.reset 15).Inv ∧ (capped State.reset 15).phase = .reset ∧ ValidConfig 16 4096 12
        ∧ (capped State.reset 15).params.tableCap.toNat < 2 ^ ((16 : BitVec 16).toNat - 12)) :=
  ⟨⟨inv_reset, rfl, valid_32_1, by decide⟩, not_valid_33_4096, by decide, rfl, valid_16_4096, by decide⟩

theorem witness_StepKeepsConstructionInvariant :
    (presents (alloced 16 4096 12) 0x0300000000).Inv
      ∧ ∃ t, step (presents (alloced 16 4096 12) 0x0300000000) = .next t := ⟨by decide, _, rfl⟩

theorem witness_StepNeverStops : (presents (readied 12 4096 12) 0x04FFFFFFFF).Inv := by decide

theorem witness_LayoutRegisterInvariants :
    (failedState.Inv ∧ failedState.phase ≠ .reset)
      ∧ ((alloced 32 1 0).Inv ∧ (alloced 32 1 0).phase = .allocated)
      ∧ ((readied 12 4096 12).Inv ∧ (readied 12 4096 12).phase = .ready) :=
  ⟨⟨inv_failed, by decide⟩, ⟨inv_alloced_max, rfl⟩, inv_ready_min, rfl⟩

theorem witness_StepKeepsTableCanonical :
    oddTable.tbl.cells = [(9, 0xFFFFFFFE)] ∧ oddTable.tbl.wf oddTable.numPtes.toNat
      ∧ ∃ t, step (presents oddTable 0x0400009000) = .next t := ⟨rfl, oddTable_wf, _, rfl⟩

theorem witness_CanonicalTablesEqual :
    oddTable.tbl.wf 16 ∧ ((oddTable.tbl.write 16 9 0).write 16 9 0xFFFFFFFE).wf 16
      ∧ oddTable.tbl.fill = ((oddTable.tbl.write 16 9 0).write 16 9 0xFFFFFFFE).fill
      ∧ ∀ i < 16, oddTable.tbl.read 16 i = ((oddTable.tbl.write 16 9 0).write 16 9 0xFFFFFFFE).read 16 i := by decide

theorem witness_TableWriteThenRead :
    oddTable.tbl.wf oddTable.numPtes.toNat
      ∧ (oddTable.ptbrOwn = true ∧ 60 % 4 = 0 ∧ 60 / 4 < oddTable.numPtes.toNat)
      ∧ ∃ t, memWrite oddTable 60 0xFFFFFFFF = .ok t := ⟨oddTable_wf, by decide, _, rfl⟩

theorem witness_ParametersNeverChange :
    ∃ t, step ((capped (readied 16 4096 12) 16).withInputs [.reset]) = .next t := ⟨_, rfl⟩

theorem witness_ShiftLaws : 32 ≤ 32 ∧ lshr (0xFFFFFFFF : Word) 32 = 0 ∧ shl (1 : Word) 33 = 0 := by decide

theorem not_power_3 : ∀ k : Nat, 3 ≠ 2 ^ k
  | 0 => by decide
  | k + 1 => by rw [Nat.pow_succ]; omega

theorem witness_LogarithmIsExact :
    (1 ≤ 1 ∧ 1 ≤ 4096 ∧ log2Exact 1 = some 0) ∧ (1 ≤ 4096 ∧ 4096 ≤ 4096 ∧ log2Exact 4096 = some 12)
      ∧ (1 ≤ 3 ∧ 3 ≤ 4096 ∧ ∀ k : Nat, 3 ≠ 2 ^ k) ∧ ∀ k : Nat, 0 ≠ 2 ^ k :=
  ⟨by decide, by decide, ⟨by decide, by decide, not_power_3⟩, fun _ => (Nat.two_pow_pos _).ne⟩

end Tests
end Sys2Proof
end

/-! ## What a step writes outside the streams, and the two invariants of 10_state.md R34 and R38 -/

namespace Sys2Proof
namespace Machine

/-- From `s`, a command answered `st` makes `u` of everything but the two streams: it writes nothing, or it is ALLOC's
clean failure (41_table_alloc_init.md R133), or a construction step accepted in its one phase (60_exceptions.md R204, R205). -/
inductive CommandWrites (s : State) : Status → State → Prop
  | nothing (st : Status) : CommandWrites s st s
  | allocFailure (hp : s.phase = .laidOut) : CommandWrites s .allocFailure (s.setPhase .failed)
  | layout (a p : BitVec 16) (k : Fin 13) (hp : s.phase = .reset) :
      CommandWrites s .ok (s.latchLayout a p (computeLayout k))
  | alloc (n : Nat) (hp : s.phase = .laidOut) : CommandWrites s .ok (s.allocateTable n)
  | init (hp : s.phase = .allocated) : CommandWrites s .ok s.fillTable

@[simp] theorem State.withStreams_responses (s : State) (rs : List ResponseWord) (ts : List TraceWord) :
    (s.withStreams rs ts).responses = rs := rfl

theorem State.pushResponse_emitTrace_eq (s : State) (tr : TraceWord) (rw : ResponseWord) :
    (s.emitTrace tr).pushResponse rw = s.withStreams (s.responses ++ [rw]) (s.emitTrace tr).traces :=
  congrArg (State.pushResponse · rw) (State.emitTrace_eq s tr)

/-- The one response of a command, and with it all the command writes. -/
theorem exec_writes {i : Instr} {s t : State} (h : exec i s = .next t) :
    ∃ st data ts u, CommandWrites s st u ∧ t = u.withStreams (s.responses ++ [respWord st data]) ts := by
  cases i with
  | layout a p =>
    rcases execLayout_cases h with ⟨-, rfl⟩ | ⟨-, -, rfl⟩ | ⟨k, hp, -, rfl⟩
    · exact ⟨_, _, _, _, .nothing _, rfl⟩
    · exact ⟨_, _, _, _, .nothing _, rfl⟩
    · exact ⟨_, _, _, _, .layout a p k hp, rfl⟩
  | alloc =>
    rcases execAlloc_cases h with ⟨-, rfl⟩ | ⟨hp, -, -, rfl⟩ | ⟨hp, -, -, rfl⟩
    · exact ⟨_, _, _, _, .nothing _, rfl⟩
    · exact ⟨_, _, _, _, .allocFailure hp, rfl⟩
    · exact ⟨_, _, _, _, .alloc _ hp, rfl⟩
  | init =>
    rcases execInit_cases h with ⟨-, rfl⟩ | ⟨hp, -, rfl⟩
    · exact ⟨_, _, _, _, .nothing _, rfl⟩
    · exact ⟨_, _, _, _, .init hp, rfl⟩
  | xlate va =>
    rcases execXlate_cases h with ⟨-, rfl⟩ | ⟨-, -, rfl⟩ | ⟨-, -, -, rfl⟩
    · exact ⟨_, _, _, _, .nothing _, rfl⟩
    · exact ⟨_, _, _, _, .nothing _, State.pushResponse_emitTrace_eq s _ _⟩
    · exact ⟨_, _, _, _, .nothing _, State.pushResponse_emitTrace_eq s _ _⟩

/-- A step that is no reset changes nothing, or takes one input off, adds one response and writes what a command writes. -/
theorem step_writes {s t : State} (h : step s = .next t) (hr : s.inputs.head? ≠ some .reset) :
    t = s ∨ ∃ rest st data ts u, CommandWrites (s.withInputs rest) st u
      ∧ t = u.withStreams (s.responses ++ [respWord st data]) ts := by
  rcases step_cases h with ⟨-, rfl⟩ | ⟨rest, hin, -⟩ | ⟨w, rest, i, -, -, hx⟩ | ⟨w, rest, e, -, -, rfl⟩
  · exact .inl rfl
  · exact absurd (congrArg List.head? hin) hr
  · exact .inr ⟨rest, exec_writes hx⟩
  · exact .inr ⟨rest, _, _, _, _, .nothing _, rfl⟩

section
variable {s u : State} {st : Status}

/-- Past RESET no command writes a layout register (10_state.md R38). -/
theorem CommandWrites.keeps_layout (h : CommandWrites s st u) (hp : s.phase ≠ .reset) :
    u.asb = s.asb ∧ u.ps = s.ps ∧ u.psb = s.psb ∧ u.vpnMask = s.vpnMask ∧ u.shift = s.shift
      ∧ u.pfnShift = s.pfnShift ∧ u.offsetMask = s.offsetMask := by
  cases h with
  | layout _ _ _ hr => exact absurd hr hp
  | nothing | allocFailure | alloc | init => simp

/-- Once a table exists no command writes its size or its ownership (10_state.md R38). -/
theorem CommandWrites.keeps_allocation (h : CommandWrites s st u) (hp : s.phase.hasTable) :
    u.numPtes = s.numPtes ∧ u.ptbrOwn = s.ptbrOwn := by
  cases h with
  | alloc _ hl => simp [hl, Phase.hasTable] at hp
  | nothing | allocFailure | layout | init => simp

/-- In READY no command writes anything outside the streams (10_state.md R38; 42_translate.md R161). -/
theorem CommandWrites.eq_of_ready (h : CommandWrites s st u) (hp : s.phase = .ready) : u = s := by
  cases h with
  | nothing => rfl
  | allocFailure hq | layout _ _ _ hq | alloc _ hq | init hq => simp [hq] at hp

/-- A command not answered OK writes at most PHASE (60_exceptions.md R204, R207). -/
theorem CommandWrites.eq_of_not_ok (h : CommandWrites s st u) (hst : st ≠ .ok) : u.setPhase s.phase = s := by
  cases h with
  | nothing | allocFailure => rfl
  | layout | alloc | init => exact absurd rfl hst

end

/-- Settles O46: each clause is what `CommandWrites` allows in the phase, or under the status, that the clause names. -/
theorem constructedStateImmutable : Obligations.ConstructedStateImmutable := by
  intro s t hstep hr
  rcases step_writes hstep hr with rfl | ⟨rest, st, data, ts, u, hw, rfl⟩
  · refine ⟨fun _ => ⟨rfl, rfl, rfl, rfl, rfl, rfl, rfl⟩, fun _ => ⟨rfl, rfl⟩, fun _ => ⟨rfl, fun _ => rfl⟩, ?_⟩
    intro st data hresp
    simp at hresp
  · refine ⟨hw.keeps_layout, hw.keeps_allocation, ?_, ?_⟩
    · intro hp
      obtain rfl := hw.eq_of_ready hp
      exact ⟨rfl, fun _ => rfl⟩
    · intro st' data' hresp hst
      obtain ⟨rfl, -⟩ : st = st' ∧ data = data' := by simpa using hresp
      exact congrArg (fun v => (v.withInputs s.inputs).bare) (hw.eq_of_not_ok hst)

/-- Settles O53: under `LayoutOk` VPN_MASK is the complement of OFFSET_MASK, which is all the mask laws need; the other
equations are the invariant's own. -/
theorem layoutRegisterInvariants : Obligations.LayoutRegisterInvariants := by
  rintro s ⟨-, hlayout, htable, -, -⟩ hp
  obtain ⟨-, ⟨hpsb, hle⟩, hps, ⟨hshift, hpfn⟩, hoff, hvpn⟩ := hlayout hp
  have hnot : s.vpnMask = ~~~s.offsetMask := highMask_eq_not (by omega) hvpn hoff
  rw [hnot]
  exact ⟨masks_cover, masks_disjoint, hshift, hpfn, hps, hle, masks_split _, fun ht => (htable ht).1⟩

end Machine
end Sys2Proof

/-! ## The decoder by the numbers of a word's fields (30_encoding.md R82, R89) -/

namespace Sys2Proof

section
variable {w : CommandWord}

theorem opcodeField_eq_iff {o : BitVec 8} : opcodeField w = o ↔ w.toNat / 2 ^ 32 = o.toNat := by
  rw [← opcodeField_toNat, BitVec.toNat_inj]

theorem argField_eq_zero_iff : argField w = 0 ↔ w.toNat % 2 ^ 32 = 0 := by
  rw [← argField_toNat]
  exact BitVec.toNat_inj.symm

theorem argField_eq_ofNat (w : CommandWord) : argField w = BitVec.ofNat 32 w.toNat :=
  BitVec.eq_of_toNat_eq (by rw [argField_toNat, BitVec.toNat_ofNat])

/-- A 16-bit slice of ARG is the same slice of the word's number. -/
theorem argField_slice_eq_ofNat (w : CommandWord) {k : Nat} (hk : k ≤ 16) :
    (argField w).extractLsb' k 16 = BitVec.ofNat 16 (w.toNat / 2 ^ k) := by
  apply BitVec.eq_of_toNat_eq
  have hsplit : 2 ^ 32 = 2 ^ k * 2 ^ (32 - k) := by rw [← Nat.pow_add]; congr 1; omega
  have hdvd : 2 ^ 16 ∣ 2 ^ (32 - k) := Nat.pow_dvd_pow 2 (by omega)
  rw [BitVec.extractLsb'_toNat, Nat.shiftRight_eq_div_pow, argField_toNat, BitVec.toNat_ofNat, hsplit,
    Nat.mod_mul_right_div_self, Nat.mod_mod_of_dvd _ hdvd]

theorem decode_of_opcode_layout (h : opcodeField w = 0x01) :
    decode w = .ok (.layout ((argField w).extractLsb' 16 16) ((argField w).extractLsb' 0 16)) := by
  rw [decode, if_pos h]

theorem decode_of_opcode_alloc (h : opcodeField w = 0x02) : decode w = decodeZ 0x02 (argField w) .alloc := by
  simp [decode, h]

theorem decode_of_opcode_init (h : opcodeField w = 0x03) : decode w = decodeZ 0x03 (argField w) .init := by
  simp [decode, h]

theorem decode_of_opcode_xlate (h : opcodeField w = 0x04) : decode w = .ok (.xlate (argField w)) := by
  simp [decode, h]

theorem decode_of_opcode_unknown (h : w.toNat / 2 ^ 32 = 0 ∨ 4 < w.toNat / 2 ^ 32) :
    decode w = .error (.unknownOpcode (opcodeField w)) := by
  have hne (o : BitVec 8) (ho : 0 < o.toNat ∧ o.toNat ≤ 4) : opcodeField w ≠ o := by
    rw [Ne, opcodeField_eq_iff]
    omega
  rw [decode, if_neg (hne 0x01 (by decide)), if_neg (hne 0x02 (by decide)), if_neg (hne 0x03 (by decide)),
    if_neg (hne 0x04 (by decide))]

theorem decodeZ_zero (o : BitVec 8) (i : Instr) : decodeZ o 0 i = .ok i := if_pos rfl

theorem decodeZ_of_ne_zero {o : BitVec 8} {arg : Word} {i : Instr} (h : arg ≠ 0) :
    decodeZ o arg i = .error (.operandNotZero o) := if_neg h

/-- The words that are ILLEGAL by R82: an opcode off the table, or a Z-format opcode with an operand. -/
theorem exists_decode_error
    (h : w.toNat / 2 ^ 32 = 0 ∨ 4 < w.toNat / 2 ^ 32
      ∨ ((w.toNat / 2 ^ 32 = 2 ∨ w.toNat / 2 ^ 32 = 3) ∧ w.toNat % 2 ^ 32 ≠ 0)) :
    ∃ e, decode w = .error e := by
  rcases h with hlow | hhigh | ⟨halloc | hinit, harg⟩
  · exact ⟨_, decode_of_opcode_unknown (.inl hlow)⟩
  · exact ⟨_, decode_of_opcode_unknown (.inr hhigh)⟩
  · exact ⟨_, (decode_of_opcode_alloc (opcodeField_eq_iff.mpr halloc)).trans
      (decodeZ_of_ne_zero (mt argField_eq_zero_iff.mp harg))⟩
  · exact ⟨_, (decode_of_opcode_init (opcodeField_eq_iff.mpr hinit)).trans
      (decodeZ_of_ne_zero (mt argField_eq_zero_iff.mp harg))⟩

end

namespace Machine

/-- A word that does not decode is answered IllegalCommand (30_encoding.md R89; 60_exceptions.md R206). -/
theorem runCommand_of_decode_error {w : CommandWord} {e : DecodeError} (h : decode w = .error e) (s : State) :
    runCommand w s = .next (s.pushResponse (respWord .illegalCommand 0)) := by
  simp only [runCommand, h]
  rfl

/-- Settles O3: one equation of the decoder for each opcode, with the fields read as numbers. -/
theorem decodeByFields : Obligations.DecodeByFields := by
  intro w
  refine ⟨fun hop => ?layout, fun hop harg => ?alloc, fun hop harg => ?init, fun hop => ?xlate,
    fun hill => ?illegal⟩
  case layout =>
    rw [decode_of_opcode_layout (opcodeField_eq_iff.mpr hop), argField_slice_eq_ofNat w (Nat.le_refl 16),
      argField_slice_eq_ofNat w (Nat.zero_le 16), Nat.pow_zero, Nat.div_one]
  case alloc => rw [decode_of_opcode_alloc (opcodeField_eq_iff.mpr hop), argField_eq_zero_iff.mpr harg, decodeZ_zero]
  case init => rw [decode_of_opcode_init (opcodeField_eq_iff.mpr hop), argField_eq_zero_iff.mpr harg, decodeZ_zero]
  case xlate => rw [decode_of_opcode_xlate (opcodeField_eq_iff.mpr hop), argField_eq_ofNat]
  case illegal =>
    obtain ⟨e, he⟩ := exists_decode_error hill
    exact ⟨⟨e, he⟩, runCommand_of_decode_error he⟩

end Machine
end Sys2Proof

/-! ## LAYOUT: the configuration check and the three answers (40_geometry.md R110 to R116) -/

namespace Sys2Proof
namespace Machine

/-- A configuration passes the check exactly when it has an exponent: past the check the logarithm is never off its domain
(40_geometry.md R112). -/
theorem configExponent_isSome (a p : BitVec 16) : (configExponent a p).isSome = validConfig a p := by
  unfold configExponent
  split
  case isTrue hv =>
    cases hl : log2Exact p.toNat with
    | none => simp [validConfig, hl] at hv
    | some k => exact hv.symm
  case isFalse hv => simpa using hv

theorem validConfig_iff {a p : BitVec 16} : validConfig a p = true ↔ ∃ k, ValidConfig a p k := by
  rw [← configExponent_isSome, Option.isSome_iff_ne_none, Ne, configExponent_eq_none, not_not]

theorem ValidConfig.exponent_lt {a p : BitVec 16} {k : Nat} (hv : ValidConfig a p k) : k < 13 := by
  obtain ⟨-, ⟨-, hmax⟩, hpow, -⟩ := hv
  exact (Nat.pow_lt_pow_iff_right (a := 2) (by decide)).mp (by omega)

/-- The masks of every page size are complements of each other, which is all R116 needs. -/
theorem computeLayout_vpnMask (k : Fin 13) : (computeLayout k).vpnMask = ~~~(computeLayout k).offsetMask := by
  revert k; decide

section
variable {s : State} {a p : BitVec 16}

theorem exec_layout_of_phase_ne (hp : s.phase ≠ .reset) :
    exec (.layout a p) s = .next (s.pushResponse (respWord .badSequence 0)) := if_neg hp

theorem exec_layout_of_invalid (hp : s.phase = .reset) (hv : ¬ ∃ k, ValidConfig a p k) :
    exec (.layout a p) s = .next (s.pushResponse (respWord .invalidConfiguration 0)) := by
  rw [exec, execLayout, if_pos hp, configExponent_eq_none.mpr hv]
  rfl

theorem exec_layout_of_valid {k : Nat} (hp : s.phase = .reset) (hv : ValidConfig a p k) :
    exec (.layout a p) s =
      .next ((s.latchLayout a p (computeLayout ⟨k, hv.exponent_lt⟩)).pushResponse (respWord .ok 0)) := by
  rw [exec, execLayout, if_pos hp, (configExponent_eq_some (k := ⟨k, hv.exponent_lt⟩)).mpr hv]
  rfl

end

/-- Settles O13: the three answers of LAYOUT, the registers by the closed forms of R113, and the word by its fields. -/
theorem layoutOutcome : Obligations.LayoutOutcome := by
  intro s a p
  refine ⟨exec_layout_of_phase_ne, exec_layout_of_invalid, fun k hp hv => ?ok, ?word⟩
  case ok =>
    rw [exec_layout_of_valid hp hv, computeLayout_eq, BitVec.ofNat_toNat, BitVec.ofNat_toNat]
    rfl
  case word => exact (encode_toNat (.layout a p)).trans (Nat.add_assoc _ _ _).symm

/-- Settles O14: the check is the existence of an exponent, and an invalid configuration is answered without a write. -/
theorem validationIsFourConditions : Obligations.ValidationIsFourConditions := by
  intro a p
  refine ⟨?conditions, fun hinvalid s hp => exec_layout_of_invalid hp ?none⟩
  case conditions => simp only [validConfig_iff, ValidConfig, exists_and_left]
  case none => rw [← validConfig_iff, hinvalid]; decide

/-- Settles O15: VPN_MASK is written as the complement of OFFSET_MASK, so the mask laws apply. -/
theorem layoutMasksSplitAddresses : Obligations.LayoutMasksSplitAddresses := by
  intro s a p k hp hv
  refine ⟨_, exec_layout_of_valid hp hv, ?_⟩
  simp only [State.pushResponse_vpnMask, State.pushResponse_offsetMask, State.latchLayout_vpnMask,
    State.latchLayout_offsetMask, computeLayout_vpnMask]
  exact ⟨masks_disjoint, masks_cover, masks_split _⟩

/-- Settles O17: page size 1 is valid at every address width, with exponent 0. -/
theorem pageSizeOneLayout : Obligations.PageSizeOneLayout := by
  refine ⟨by decide, fun s a hp hmin hmax => ?_⟩
  have hv : ValidConfig a 1 0 := ⟨⟨hmin, hmax⟩, by decide, rfl, Nat.zero_le _⟩
  exact ⟨_, exec_layout_of_valid hp hv, rfl, rfl, rfl, rfl, rfl⟩

end Machine
end Sys2Proof

/-! ## ALLOC and INIT: their answers and the words of the table (41_table_alloc_init.md R130 to R139) -/

namespace Sys2Proof
namespace Machine

theorem pteOffset_eq (i : Nat) : pteOffset i = 4 * i := Nat.zero_add _

/-- The words of an ALLOCATED table of the invariant (41_table_alloc_init.md R132). -/
theorem State.entry_of_allocated {s : State} (hi : s.Inv) (hp : s.phase = .allocated) (i : Nat) : s.entry i = 0 := by
  obtain ⟨-, -, -, -, htbl⟩ := hi
  have hzero : s.tbl = Memory.zeroed := by rw [htbl, hp]; rfl
  rw [State.entry, hzero, Memory.read_zeroed]

/-- A table exists, and is owned, wherever INIT and XLATE are allowed (10_state.md R33). -/
theorem State.Inv.owned {s : State} (hi : s.Inv) (hp : s.phase.hasTable) : s.ptbrOwn = true := by
  obtain ⟨-, -, htable, -, -⟩ := hi
  exact (htable hp).2.2

section
variable {s t : State}

theorem exec_alloc_of_phase_ne (hp : s.phase ≠ .laidOut) :
    exec .alloc s = .next (s.pushResponse (respWord .badSequence 0)) := if_neg hp

theorem exec_alloc_of_count_gt (hp : s.phase = .laidOut) (hle : s.psb.toNat ≤ s.asb.toNat)
    (hcap : s.params.tableCap.toNat < entryCount s.asb.toNat s.psb.toNat) :
    exec .alloc s = .next ((s.setPhase .failed).pushResponse (respWord .allocFailure 0)) := by
  rw [exec, execAlloc, if_pos hp, if_pos hle, if_pos hcap]
  rfl

theorem exec_alloc_of_count_le (hp : s.phase = .laidOut) (hle : s.psb.toNat ≤ s.asb.toNat)
    (hcap : entryCount s.asb.toNat s.psb.toNat ≤ s.params.tableCap.toNat) :
    exec .alloc s =
      .next ((s.allocateTable (entryCount s.asb.toNat s.psb.toNat)).pushResponse (respWord .ok 0)) := by
  rw [exec, execAlloc, if_pos hp, if_pos hle, if_neg (Nat.not_lt.mpr hcap)]
  rfl

/-- An OK response of ALLOC means that it allocated: the other answers are other words (30_encoding.md R91). -/
theorem exec_alloc_ok (h : exec .alloc s = .next t) (hok : t.responses = s.responses ++ [respWord .ok 0]) :
    t = (s.allocateTable (entryCount s.asb.toNat s.psb.toNat)).pushResponse (respWord .ok 0) := by
  rcases execAlloc_cases h with ⟨-, rfl⟩ | ⟨-, -, -, rfl⟩ | ⟨-, -, -, rfl⟩
  · simp at hok
  · simp at hok
  · rfl

theorem exec_init_of_phase_ne (hp : s.phase ≠ .allocated) :
    exec .init s = .next (s.pushResponse (respWord .badSequence 0)) := if_neg hp

theorem exec_init_of_owned (hp : s.phase = .allocated) (ho : s.ptbrOwn = true) :
    exec .init s = .next (s.fillTable.pushResponse (respWord .ok 0)) := by
  rw [exec, execInit, if_pos hp, if_pos ho]
  rfl

variable {va : Word}

theorem xlateAnswers_outOfRange (hp : s.phase = .ready) (hb : s.numPtes.toNat ≤ (extractVpn s va).toNat) :
    XlateAnswers s va .outOfRange 0 :=
  ⟨_, (execXlate_outOfRange hp hb).trans (congrArg _ (State.pushResponse_emitTrace_eq s _ _))⟩

/-- In range XLATE answers what the entry of the VPN decides (42_translate.md R156, R158). -/
theorem xlateAnswers_entry (hp : s.phase = .ready) (ho : s.ptbrOwn = true)
    (hb : (extractVpn s va).toNat < s.numPtes.toNat) :
    XlateAnswers s va (permission (s.entry (extractVpn s va).toNat))
      (entryAnswer s va (s.entry (extractVpn s va).toNat)) :=
  ⟨_, (execXlate_entry hp ho hb).trans (congrArg _ (State.pushResponse_emitTrace_eq s _ _))⟩

/-- A zero entry is invalid: XLATE answers NotValid with no data. -/
theorem xlateAnswers_notValid_of_entry_zero (hp : s.phase = .ready) (ho : s.ptbrOwn = true)
    (hb : (extractVpn s va).toNat < s.numPtes.toNat) (he : s.entry (extractVpn s va).toNat = 0) :
    XlateAnswers s va .notValid 0 := by
  have hanswer := xlateAnswers_entry hp ho hb
  rw [he] at hanswer
  exact hanswer

end

/-- Settles O19: one answer for each branch of R130, the count R131's power of two. -/
theorem allocOutcome : Obligations.AllocOutcome := fun _ =>
  ⟨exec_alloc_of_phase_ne, exec_alloc_of_count_gt, exec_alloc_of_count_le, Memory.read_zeroed, encode_toNat .alloc⟩

/-- Settles O20: an OK response means a table was allocated, and every word of an allocated table is zero. -/
theorem allocZeroFills : Obligations.AllocZeroFills := by
  intro s t _ h hok
  obtain rfl := exec_alloc_ok h hok
  refine ⟨rfl, fun i hi => ⟨?_, rfl, rfl⟩⟩
  rw [← pteOffset_eq, memRead_pteOffset rfl hi]
  rfl

/-- Settles O25: INIT's fill writes the lower half only, so the upper half keeps the zeros ALLOC wrote. -/
theorem initOutcome : Obligations.InitOutcome := by
  intro s
  refine ⟨exec_init_of_phase_ne, fun hp ho => ?fills, fun hinv hp => ?upper, encode_toNat .init⟩
  case fills => exact ⟨_, exec_init_of_owned hp ho, fun i _ => Memory.read_fillLower s.tbl s.numPtes.toNat i⟩
  case upper =>
    refine ⟨_, exec_init_of_owned hp (hinv.owned (.inl hp)), fun i _ hhalf => ?_⟩
    have hupper : ¬ i < s.numPtes.toNat / 2 := Nat.not_lt.mpr hhalf
    rw [State.pushResponse_entry, State.fillTable_entry, if_neg hupper, State.entry_of_allocated hinv hp]

/-- Settles O30: half of one entry is none, half of two is one, and VPN 0 is the only one in range of one entry. -/
theorem oneEntryTable : Obligations.OneEntryTable := by
  intro s hinv hp
  refine ⟨fun hn => ?one, fun hn => ?two⟩
  case one =>
    have hzero : s.entry 0 = 0 := by rw [State.entry_of_ready hinv hp, hn]; rfl
    refine ⟨hzero, fun va => ⟨fun hvpn => ?inRange, fun hvpn => ?outOfRange⟩⟩
    case inRange =>
      refine xlateAnswers_notValid_of_entry_zero hp (hinv.owned (.inr hp)) ?_ ?_
      · rw [hvpn, hn]; decide
      · rw [hvpn]; exact hzero
    case outOfRange =>
      refine xlateAnswers_outOfRange hp ?_
      rw [hn]
      exact Nat.pos_of_ne_zero fun hz => hvpn (BitVec.eq_of_toNat_eq hz)
  case two =>
    simp only [State.entry_of_ready hinv hp, hn]
    decide

end Machine
end Sys2Proof

/-! ## XLATE: its answers, what they depend on, and page size 1 (42_translate.md R150 to R164) -/

namespace Sys2Proof
namespace Machine

/-! ### What XLATE reads of an entry: the frame number and the two flags, not bits [11:2] (R155, R164) -/

theorem ptePfn_setWidth (e : Word) : (ptePfn e).setWidth 32 = e >>> 12 := by
  apply BitVec.eq_of_toNat_eq
  rw [BitVec.toNat_setWidth, ptePfn_toNat, BitVec.toNat_ushiftRight, Nat.shiftRight_eq_div_pow]
  omega

theorem ptePfn_unreserved (e : Word) : ptePfn (e &&& 0xFFFFF003) = ptePfn e := by
  apply BitVec.eq_of_toNat_eq
  rw [ptePfn_toNat, ptePfn_toNat, unreserved_toNat]
  omega

theorem pteValid_unreserved (e : Word) : pteValid (e &&& 0xFFFFF003) = pteValid e := by
  apply BitVec.eq_of_toNat_eq
  rw [pteValid_toNat, pteValid_toNat, unreserved_toNat]
  omega

theorem pteAccess_unreserved (e : Word) : pteAccess (e &&& 0xFFFFF003) = pteAccess e := by
  apply BitVec.eq_of_toNat_eq
  rw [pteAccess_toNat, pteAccess_toNat, unreserved_toNat]
  omega

theorem permission_unreserved (e : Word) : permission (e &&& 0xFFFFF003) = permission e := by
  simp only [permission, pteValid_unreserved, pteAccess_unreserved]

theorem traceEntry_unreserved (vpn e : Word) : traceEntry vpn (e &&& 0xFFFFF003) = traceEntry vpn e := by
  simp only [traceEntry, ptePfn_unreserved, pteValid_unreserved, pteAccess_unreserved]

theorem entryAnswer_unreserved (s : State) (va e : Word) :
    entryAnswer s va (e &&& 0xFFFFF003) = entryAnswer s va e := by
  simp only [entryAnswer, permission_unreserved, ptePfn_unreserved]

/-- INIT's words have no reserved bit set (41_table_alloc_init.md R137; 30_encoding.md R93). -/
theorem initWord_reserved (i : Nat) : initWord i &&& 0x00000FFC = 0 := by
  apply BitVec.eq_of_toNat_eq
  rw [reserved_toNat, initWord_toNat]
  show _ = 0
  split <;> omega

/-! ### XLATE's answer, in terms that do not name the streams -/

section
variable {s t : State} {va : Word} {st : Status} {data : Word}

theorem exec_xlate_of_phase_ne (hp : s.phase ≠ .ready) :
    exec (.xlate va) s = .next (s.pushResponse (respWord .badSequence 0)) := if_neg hp

/-- A translation that ends in a next state gives an answer, and writes the two streams only (42_translate.md R161). -/
theorem exec_xlate_next (h : exec (.xlate va) s = .next t) :
    ∃ st data ts, t = s.withStreams (s.responses ++ [respWord st data]) ts := by
  rcases execXlate_cases h with ⟨-, rfl⟩ | ⟨-, -, rfl⟩ | ⟨-, -, -, rfl⟩
  · exact ⟨_, _, _, rfl⟩
  · exact ⟨_, _, _, State.pushResponse_emitTrace_eq s _ _⟩
  · exact ⟨_, _, _, State.pushResponse_emitTrace_eq s _ _⟩

/-- R150's three branches: the phase, the bound check, and the decision over the entry. -/
theorem xlateAnswers_iff :
    XlateAnswers s va st data ↔
      (s.phase ≠ .ready ∧ st = .badSequence ∧ data = 0)
      ∨ (s.phase = .ready ∧ s.numPtes.toNat ≤ (extractVpn s va).toNat ∧ st = .outOfRange ∧ data = 0)
      ∨ (s.phase = .ready ∧ s.ptbrOwn = true ∧ (extractVpn s va).toNat < s.numPtes.toNat
          ∧ st = permission (s.entry (extractVpn s va).toNat)
          ∧ data = entryAnswer s va (s.entry (extractVpn s va).toNat)) := by
  constructor
  · rintro ⟨ts, h⟩
    rcases execXlate_cases h with ⟨hp, ht⟩ | ⟨hp, hb, ht⟩ | ⟨hp, ho, hb, ht⟩
    all_goals have hresp := congrArg State.responses ht
    · exact .inl ⟨hp, by simpa using hresp⟩
    · exact .inr (.inl ⟨hp, hb, by simpa using hresp⟩)
    · exact .inr (.inr ⟨hp, ho, hb, by simpa using hresp⟩)
  · rintro (⟨hp, rfl, rfl⟩ | ⟨hp, hb, rfl, rfl⟩ | ⟨hp, ho, hb, rfl, rfl⟩)
    · exact ⟨_, exec_xlate_of_phase_ne hp⟩
    · exact xlateAnswers_outOfRange hp hb
    · exact xlateAnswers_entry hp ho hb

/-- A translation reads neither stream. -/
theorem XlateAnswers.withStreams (h : XlateAnswers s va st data) (rs : List ResponseWord) (ts : List TraceWord) :
    XlateAnswers (s.withStreams rs ts) va st data := by
  rw [xlateAnswers_iff] at h ⊢
  exact h

/-- In range of a READY table of the invariant the answer is decided by the word at the VPN. -/
theorem State.Inv.xlateAnswers_entry (hi : s.Inv) (hp : s.phase = .ready)
    (hb : (extractVpn s va).toNat < s.numPtes.toNat) :
    XlateAnswers s va (permission (s.entry (extractVpn s va).toNat))
      (entryAnswer s va (s.entry (extractVpn s va).toNat)) :=
  Machine.xlateAnswers_entry hp (hi.owned (.inr hp)) hb

end

/-! ### The operand computations under good layout registers (42_translate.md R151, R157) -/

section
variable {s s' : State}

theorem State.LayoutOk.extractVpn_toNat (h : s.LayoutOk) (va : Word) :
    (extractVpn s va).toNat = va.toNat / 2 ^ s.psb.toNat := by
  obtain ⟨-, ⟨hpsb, -⟩, -, ⟨hshift, -⟩, -, hvpn⟩ := h
  rw [extractVpn, lshr, BitVec.toNat_ushiftRight, highMask_eq (by omega) hvpn, hshift,
    Nat.shiftRight_eq_div_pow, Nat.mul_div_cancel _ (Nat.two_pow_pos _)]

theorem State.LayoutOk.extractOffset_toNat (h : s.LayoutOk) (va : Word) :
    (extractOffset s va).toNat = va.toNat % 2 ^ s.psb.toNat := by
  obtain ⟨-, -, -, -, hoff, -⟩ := h
  exact lowMask_eq hoff va

theorem State.Inv.layoutOk_of_ready (hi : s.Inv) (hp : s.phase = .ready) : s.LayoutOk := by
  obtain ⟨-, hlayout, -, -, -⟩ := hi
  exact hlayout (by simp [hp])

theorem State.Inv.numPtes_of_ready (hi : s.Inv) (hp : s.phase = .ready) :
    s.numPtes.toNat = 2 ^ (s.asb.toNat - s.psb.toNat) := by
  obtain ⟨-, -, htable, -, -⟩ := hi
  exact (htable (.inr hp)).1

/-- ASB and PSB determine all that XLATE reads of a READY state of the invariant (10_state.md R34). -/
theorem State.Inv.reads_eq_of_config_eq (hi : s.Inv) (hi' : s'.Inv) (hp : s.phase = .ready) (hp' : s'.phase = .ready)
    (hasb : s.asb = s'.asb) (hpsb : s.psb = s'.psb) :
    s.numPtes = s'.numPtes ∧ s.entry = s'.entry
      ∧ ∀ va, extractVpn s va = extractVpn s' va ∧ entryAnswer s va = entryAnswer s' va := by
  have hl := hi.layoutOk_of_ready hp
  have hl' := hi'.layoutOk_of_ready hp'
  have hnum : s.numPtes = s'.numPtes :=
    BitVec.eq_of_toNat_eq (by rw [hi.numPtes_of_ready hp, hi'.numPtes_of_ready hp', hasb, hpsb])
  refine ⟨hnum, ?entry, fun va => ⟨?vpn, ?answer⟩⟩
  case entry =>
    funext i
    rw [State.entry_of_ready hi hp, State.entry_of_ready hi' hp', hnum]
  case vpn => exact BitVec.eq_of_toNat_eq (by rw [hl.extractVpn_toNat, hl'.extractVpn_toNat, hpsb])
  case answer =>
    have hoff : extractOffset s va = extractOffset s' va :=
      BitVec.eq_of_toNat_eq (by rw [hl.extractOffset_toNat, hl'.extractOffset_toNat, hpsb])
    obtain ⟨-, -, -, ⟨-, hpfn⟩, -⟩ := hl
    obtain ⟨-, -, -, ⟨-, hpfn'⟩, -⟩ := hl'
    funext e
    simp only [entryAnswer, physicalAddress, hoff, hpfn, hpfn', hpsb]

end

/-- Emitting a trace record and responding leave the table alone, whatever it is. -/
theorem State.pushResponse_emitTrace_withTable (s : State) (m : Memory) (tr : TraceWord) (rw : ResponseWord) :
    (State.emitTrace { s with tbl := m } tr).pushResponse rw = { (s.emitTrace tr).pushResponse rw with tbl := m } := by
  unfold State.emitTrace
  split <;> rfl

/-! ### The obligations -/

/-- Settles O31: one equation of XLATE for each branch of R150, the decision over VALID and ACCESS read off the entry's low
two bits. -/
theorem xlateOutcome : Obligations.XlateOutcome := by
  intro s va vpn e hvpn he
  obtain rfl : vpn = extractVpn s va := hvpn
  subst he
  refine ⟨exec_xlate_of_phase_ne, execXlate_outOfRange, fun hp ho hb => ?entry, encode_toNat (.xlate va)⟩
  case entry =>
    have hexec := execXlate_entry hp ho hb
    rw [entryAnswer] at hexec
    refine ⟨fun hbits => ?notValid, fun hbits => ?notAccessible, fun hbits => ?ok⟩
    case notValid => rwa [permission_notValid.mpr hbits, if_neg (by decide)] at hexec
    case notAccessible => rwa [permission_notAccessible.mpr hbits, if_neg (by decide)] at hexec
    case ok => rwa [permission_ok.mpr hbits, if_pos rfl, physicalAddress, ptePfn_setWidth] at hexec

/-- Settles O35: the status, the data and the trace record of an entry are those of the entry with bits [11:2] cleared, and
INIT's words have none of them set. -/
theorem reservedBitsIgnored : Obligations.ReservedBitsIgnored := by
  refine ⟨fun s t m va hagree h => ?sameOutcome, fun s hi hp i _ => ?zero⟩
  case sameOutcome =>
    rcases execXlate_cases h with ⟨hp, rfl⟩ | ⟨hp, hb, rfl⟩ | ⟨hp, ho, hb, rfl⟩
    · exact exec_xlate_of_phase_ne hp
    · rw [← State.pushResponse_emitTrace_withTable]
      exact execXlate_outOfRange (s := { s with tbl := m }) hp hb
    · -- Clear the reserved bits of the entry, where the tables agree, and put back those of the other table.
      rw [← State.pushResponse_emitTrace_withTable, ← traceEntry_unreserved, ← permission_unreserved,
        ← entryAnswer_unreserved, ← hagree, traceEntry_unreserved, permission_unreserved, entryAnswer_unreserved]
      exact execXlate_entry (s := { s with tbl := m }) hp ho hb
  case zero =>
    rw [State.entry_of_ready hi hp]
    split
    · exact initWord_reserved i
    · rfl

/-- Settles O36: the answer is a function of what XLATE reads, which leaves out the streams, and in READY is given by ASB,
PSB and the address. -/
theorem xlateIsPure : Obligations.XlateIsPure := by
  refine ⟨fun s t va h => ?again, fun s s' va hi hi' hp hp' hasb hpsb => ?config⟩
  case again =>
    obtain ⟨st, data, ts, rfl⟩ := exec_xlate_next h
    have hanswer : XlateAnswers s va st data := ⟨ts, h⟩
    obtain ⟨ts', hagain⟩ := hanswer.withStreams (s.responses ++ [respWord st data]) ts
    exact ⟨rfl, _, _, rfl, hagain, rfl, rfl⟩
  case config =>
    obtain ⟨hnum, hentry, hva⟩ := hi.reads_eq_of_config_eq hi' hp hp' hasb hpsb
    obtain ⟨hvpn, hdata⟩ := hva va
    rcases Nat.lt_or_ge (extractVpn s va).toNat s.numPtes.toNat with hb | hb
    · refine ⟨_, _, hi.xlateAnswers_entry hp hb, ?_⟩
      rw [hdata, hentry, hvpn]
      exact hi'.xlateAnswers_entry hp' (by rwa [← hvpn, ← hnum])
    · exact ⟨_, _, xlateAnswers_outOfRange hp hb, xlateAnswers_outOfRange hp' (by rwa [← hvpn, ← hnum])⟩

/-- Settles O40: with PSB = 0 the VPN is `va / 1`, the offset `va % 1`, and the frame number is shifted by 0. -/
theorem pageSizeOneTranslation : Obligations.PageSizeOneTranslation := by
  intro s va hi hp hpsb
  have hl := hi.layoutOk_of_ready hp
  have hvpn : extractVpn s va = va := BitVec.eq_of_toNat_eq (by simp [hl.extractVpn_toNat, hpsb])
  have hoff : extractOffset s va = 0 := BitVec.eq_of_toNat_eq (by simp [hl.extractOffset_toNat, hpsb, Nat.mod_one])
  refine ⟨hvpn, hoff, fun hlt hmod => ⟨?answer, ?frame⟩⟩
  case answer =>
    have hok : permission (s.entry va.toNat) = .ok := by
      rw [State.entry_of_ready hi hp, if_pos hlt, permission_ok, initWord_toNat, if_neg hmod]
      omega
    have hanswer := hi.xlateAnswers_entry (va := va) hp (by rw [hvpn]; omega)
    rw [hvpn, entryAnswer, if_pos hok, hok, physicalAddress, hoff] at hanswer
    simpa [shl] using hanswer
  case frame =>
    obtain ⟨-, -, -, ⟨-, hpfn⟩, -⟩ := hl
    simp [hpfn, hpsb]

end Machine
end Sys2Proof

/-! ## Commands out of phase and illegal words (60_exceptions.md R205, R206) -/

namespace Sys2Proof
namespace Machine

section
variable {s t : State} {i : Instr}

/-- Off its one phase every command is answered BadSequence and writes nothing else (60_exceptions.md R205). -/
theorem exec_of_phase_ne (hp : s.phase ≠ allowedPhase i) :
    exec i s = .next (s.pushResponse (respWord .badSequence 0)) := by
  cases i with
  | layout => exact exec_layout_of_phase_ne hp
  | alloc => exact exec_alloc_of_phase_ne hp
  | init => exact exec_init_of_phase_ne hp
  | xlate => exact exec_xlate_of_phase_ne hp

theorem permission_ne_badSequence (e : Word) : permission e ≠ .badSequence := by
  unfold permission
  split
  case isTrue => decide
  case isFalse => split <;> decide

/-- In its one phase a command is answered with another status than BadSequence (60_exceptions.md R205). -/
theorem exec_response_of_phase_eq (hp : s.phase = allowedPhase i) (h : exec i s = .next t) :
    ∃ st data, t.responses = s.responses ++ [respWord st data] ∧ st ≠ .badSequence := by
  cases i with
  | layout a p =>
    rcases execLayout_cases h with ⟨hne, -⟩ | ⟨-, -, rfl⟩ | ⟨k, -, -, rfl⟩
    · exact absurd hp hne
    · exact ⟨.invalidConfiguration, _, rfl, by decide⟩
    · exact ⟨.ok, _, rfl, by decide⟩
  | alloc =>
    rcases execAlloc_cases h with ⟨hne, -⟩ | ⟨-, -, -, rfl⟩ | ⟨-, -, -, rfl⟩
    · exact absurd hp hne
    · exact ⟨.allocFailure, _, rfl, by decide⟩
    · exact ⟨.ok, _, rfl, by decide⟩
  | init =>
    rcases execInit_cases h with ⟨hne, -⟩ | ⟨-, -, rfl⟩
    · exact absurd hp hne
    · exact ⟨.ok, _, rfl, by decide⟩
  | xlate va =>
    rcases execXlate_cases h with ⟨hne, -⟩ | ⟨-, -, rfl⟩ | ⟨-, -, -, rfl⟩
    · exact absurd hp hne
    · exact ⟨.outOfRange, 0, by simp, by decide⟩
    · exact ⟨permission _, entryAnswer s va _, by rw [State.pushResponse_responses, State.emitTrace_responses],
        permission_ne_badSequence _⟩

end

/-- A presented word is taken off the inputs and run (30_encoding.md R80). -/
theorem step_of_command {s : State} {w : CommandWord} {rest : List HostInput} (h : s.inputs = .command w :: rest) :
    step s = runCommand w (s.withInputs rest) := by
  rw [step, h]

theorem respWord_illegalCommand : respWord .illegalCommand 0 = 0x0700000000 := rfl

/-- Settles O42: the response a command gives in its own phase is another word than BadSequence's, whatever the data. -/
theorem badSequenceExactly : Obligations.BadSequenceExactly := by
  refine fun s i => ⟨exec_of_phase_ne, fun hp t h st data hresp => ?_⟩
  obtain ⟨st', data', hresp', hne⟩ := exec_response_of_phase_eq hp h
  obtain ⟨rfl, -⟩ : st' = st ∧ data' = data := by simpa [hresp'] using hresp
  exact hne

/-- Settles O4: the decoder's refusal is answered at once, with no look at the phase. -/
theorem illegalWordChangesNothing : Obligations.IllegalWordChangesNothing := by
  intro s w rest e hin hdec
  rw [step_of_command hin, runCommand_of_decode_error hdec, respWord_illegalCommand]
  rfl

end Machine
end Sys2Proof

/-! ## Translations in sequence, and the phase transition table (70_reset_and_hazards.md R243, R247) -/

namespace Sys2Proof
namespace Machine

section
variable {s t : State} {va : Word} {st : Status} {data : Word}

theorem permission_mem_entryStatuses (e : Word) : permission e ∈ [.ok, .notValid, .notAccessible] := by
  unfold permission
  split
  case isTrue => decide
  case isFalse => split <;> decide

/-- In READY every translation is answered, with one of the four statuses of the READY row (42_translate.md R150). -/
theorem State.Inv.exists_xlateAnswers (hi : s.Inv) (hp : s.phase = .ready) (va : Word) :
    ∃ st data, XlateAnswers s va st data ∧ st ∈ [.ok, .notValid, .notAccessible, .outOfRange] := by
  rcases Nat.lt_or_ge (extractVpn s va).toNat s.numPtes.toNat with hb | hb
  · exact ⟨_, _, hi.xlateAnswers_entry hp hb, List.mem_append_left [.outOfRange] (permission_mem_entryStatuses _)⟩
  · exact ⟨_, _, xlateAnswers_outOfRange hp hb, by decide⟩

/-- The response to a translation is the status and data it is answered with. -/
theorem XlateAnswers.lastResponse (h : XlateAnswers s va st data) :
    Machine.lastResponse (exec (.xlate va) s) = some (respWord st data) := by
  obtain ⟨ts, h⟩ := h
  rw [h]
  exact List.getLast?_concat

theorem execAll_cons_of_next {i : Instr} (h : exec i s = .next t) (is : List Instr) :
    execAll (i :: is) s = execAll is t := by
  rw [execAll, h]

/-- Translations move the two streams only, which no translation reads: from `s` with any streams, each is answered as it
would be from `s` (42_translate.md R161). -/
theorem execAll_xlate_withStreams (hans : ∀ va, ∃ st data, XlateAnswers s va st data) (vas : List Word)
    (rs : List ResponseWord) (ts : List TraceWord) :
    ∃ rs' ts', execAll (vas.map .xlate) (s.withStreams rs ts) = .next (s.withStreams rs' ts')
      ∧ rs'.map some = rs.map some ++ vas.map fun va => lastResponse (exec (.xlate va) s) := by
  induction vas generalizing rs ts with
  | nil => exact ⟨rs, ts, rfl, (List.append_nil _).symm⟩
  | cons va vas ih =>
    obtain ⟨st, data, hva⟩ := hans va
    obtain ⟨ts₁, hexec⟩ := hva.withStreams rs ts
    obtain ⟨rs', ts', hrun, hrs⟩ := ih (rs ++ [respWord st data]) ts₁
    refine ⟨rs', ts', (execAll_cons_of_next hexec _).trans hrun, ?_⟩
    rw [hrs, List.map_cons, hva.lastResponse]
    simp

end

/-- Settles O37: every READY state of the invariant answers every translation, so the run from its own streams goes to the
end. -/
theorem translationsDoNotInteract : Obligations.TranslationsDoNotInteract := by
  intro vas s hi hp
  have hans (va : Word) : ∃ st data, XlateAnswers s va st data := by
    obtain ⟨st, data, hva, -⟩ := hi.exists_xlateAnswers hp va
    exact ⟨st, data, hva⟩
  obtain ⟨rs, ts, hrun, hrs⟩ := execAll_xlate_withStreams hans vas s.responses s.traces
  exact ⟨_, hrun, rfl, hrs⟩

/-! ### The cell of a state and a command word -/

/-- The cell of R243's table for the state `s` and the decoded command `c`: the row is its phase, and ALLOC's column is
chosen by its entry count and TABLE_CAP. -/
def State.cell (s : State) (c : Except DecodeError Instr) : List Status × Phase :=
  transitionCell s.phase (commandValid c) (decide (2 ^ (s.asb.toNat - s.psb.toNat) ≤ s.params.tableCap.toNat)) c

/-- `r` is a next state with one more response than `s`, its status and the phase those of the cell for `c`. -/
def FollowsCell (s : State) (c : Except DecodeError Instr) (r : Result) : Prop :=
  ∃ t st data, r = .next t ∧ t.responses = s.responses ++ [respWord st data] ∧ st ∈ (s.cell c).1 ∧ t.phase = (s.cell c).2

theorem runCommand_of_decode_ok {w : CommandWord} {i : Instr} (h : decode w = .ok i) (s : State) :
    runCommand w s = exec i s := by
  rw [runCommand, h]

section
variable {s u : State} {c : Except DecodeError Instr} {i : Instr} {a p : BitVec 16} {st : Status} {data : Word}

theorem followsCell_pushResponse (hr : u.responses = s.responses) (hc : s.cell c = ([st], u.phase)) :
    FollowsCell s c (.next (u.pushResponse (respWord st data))) := by
  refine ⟨_, st, data, rfl, ?_, ?_, ?_⟩
  · rw [State.pushResponse_responses, hr]
  · rw [hc]; exact List.mem_singleton_self st
  · rw [hc, State.pushResponse_phase]

theorem State.cell_of_phase_ne (hp : s.phase ≠ allowedPhase i) : s.cell (.ok i) = ([.badSequence], s.phase) := if_neg hp

theorem State.cell_layout (hp : s.phase = .reset) :
    s.cell (.ok (.layout a p)) =
      if validConfig a p then ([.ok], .laidOut) else ([.invalidConfiguration], .reset) := if_pos hp

theorem State.cell_alloc (hp : s.phase = .laidOut) :
    s.cell (.ok .alloc) =
      if entryCount s.asb.toNat s.psb.toNat ≤ s.params.tableCap.toNat then ([.ok], .allocated)
      else ([.allocFailure], .failed) :=
  (if_pos hp).trans (if_congr decide_eq_true_iff rfl rfl)

theorem State.cell_init (hp : s.phase = .allocated) : s.cell (.ok .init) = ([.ok], .ready) := if_pos hp

theorem State.cell_xlate {va : Word} (hp : s.phase = .ready) :
    s.cell (.ok (.xlate va)) = ([.ok, .notValid, .notAccessible, .outOfRange], .ready) := if_pos hp

theorem State.Inv.psb_le_asb (hi : s.Inv) (hp : s.phase ≠ .reset) : s.psb.toNat ≤ s.asb.toNat := by
  obtain ⟨-, hlayout, -, -, -⟩ := hi
  exact (hlayout hp).2.1.2

/-- The row of the command's one phase is decided by what the command checks: the configuration, the count, the entry. -/
theorem State.Inv.exec_followsCell_of_phase_eq (hi : s.Inv) (hp : s.phase = allowedPhase i) :
    FollowsCell s (.ok i) (exec i s) := by
  cases i with
  | layout a p =>
    by_cases hv : ∃ k, ValidConfig a p k
    case pos =>
      obtain ⟨k, hk⟩ := hv
      rw [exec_layout_of_valid hp hk]
      exact followsCell_pushResponse rfl ((State.cell_layout hp).trans (if_pos (validConfig_iff.mpr ⟨k, hk⟩)))
    case neg =>
      rw [exec_layout_of_invalid hp hv]
      refine followsCell_pushResponse rfl ?_
      rw [State.cell_layout hp, if_neg (mt validConfig_iff.mp hv), hp]
      rfl
  | alloc =>
    have hle := hi.psb_le_asb (by rw [hp]; decide)
    rcases Nat.lt_or_ge s.params.tableCap.toNat (entryCount s.asb.toNat s.psb.toNat) with hcap | hcap
    · rw [exec_alloc_of_count_gt hp hle hcap]
      exact followsCell_pushResponse rfl ((State.cell_alloc hp).trans (if_neg (Nat.not_le.mpr hcap)))
    · rw [exec_alloc_of_count_le hp hle hcap]
      exact followsCell_pushResponse rfl ((State.cell_alloc hp).trans (if_pos hcap))
  | init =>
    rw [exec_init_of_owned hp (hi.owned (.inl hp))]
    exact followsCell_pushResponse rfl (State.cell_init hp)
  | xlate va =>
    obtain ⟨st, data, ⟨ts, hexec⟩, hst⟩ := hi.exists_xlateAnswers hp va
    refine ⟨_, st, data, hexec, rfl, ?_, ?_⟩ <;> rw [State.cell_xlate hp]
    · exact hst
    · exact hp

/-- Every cell of R243's table: an illegal word, a command out of its phase, a command in its phase. -/
theorem State.Inv.runCommand_followsCell (hi : s.Inv) (w : CommandWord) :
    FollowsCell s (decode w) (runCommand w s) := by
  cases hd : decode w with
  | error e =>
    rw [runCommand_of_decode_error hd]
    exact followsCell_pushResponse rfl rfl
  | ok i =>
    rw [runCommand_of_decode_ok hd]
    by_cases hp : s.phase = allowedPhase i
    case pos => exact hi.exec_followsCell_of_phase_eq hp
    case neg =>
      rw [exec_of_phase_ne hp]
      exact followsCell_pushResponse rfl (State.cell_of_phase_ne hp)

end

/-- Settles O43: taking the word off the inputs keeps the invariant and the cell, and the word is then run by the table. -/
theorem phaseTransitions : Obligations.PhaseTransitions := by
  refine ⟨fun s w rest hi hin => ?command, fun s rest hin => ?reset⟩
  case command =>
    have hrest : (s.withInputs rest).Inv := hi
    rw [step_of_command hin]
    exact hrest.runCommand_followsCell w
  case reset => exact ⟨hardwareReset (s.withInputs rest), by rw [step, hin], rfl⟩

end Machine
end Sys2Proof

/-! ## The codec round trip: a legal word is its opcode and its operand (30_encoding.md R81 to R87) -/

namespace Sys2Proof

/-- The operand of an instruction: what its word holds in ARG (30_encoding.md R85, R86, R87). -/
def Instr.operand (i : Instr) : Word :=
  match i with
  | .layout asb16 ps16 => asb16 ++ ps16
  | .alloc => 0
  | .init => 0
  | .xlate va => va

theorem encode_eq_append (i : Instr) : encode i = i.opcode ++ i.operand := by
  cases i <;> rfl

theorem opcodeField_append (o : BitVec 8) (arg : Word) : opcodeField (o ++ arg : CommandWord) = o := by
  rw [opcodeField_eq_iff, toNat_juxtapose]
  omega

theorem argField_append (o : BitVec 8) (arg : Word) : argField (o ++ arg : CommandWord) = arg := by
  apply BitVec.eq_of_toNat_eq
  rw [argField_toNat, toNat_juxtapose]
  omega

/-- LAYOUT's two operand fields are the two halves of ARG (30_encoding.md R86). -/
theorem layout_fields_iff {arg : Word} {a p : BitVec 16} :
    (arg.extractLsb' 16 16 = a ∧ arg.extractLsb' 0 16 = p) ↔ arg = a ++ p := by
  simp only [← BitVec.toNat_inj, toNat_juxtapose, BitVec.extractLsb'_toNat, Nat.shiftRight_eq_div_pow]
  omega

theorem decodeZ_eq_ok_iff {o : BitVec 8} {arg : Word} {i j : Instr} :
    decodeZ o arg i = .ok j ↔ arg = 0 ∧ i = j := by
  unfold decodeZ
  split
  case isTrue h => simp [h]
  case isFalse h => exact ⟨nofun, fun hz => absurd hz.1 h⟩

/-- A word decodes to `i` exactly when its two fields are those of `i`: all that R82 says of legal words. -/
theorem decode_eq_ok_iff {w : CommandWord} {i : Instr} :
    decode w = .ok i ↔ opcodeField w = i.opcode ∧ argField w = i.operand := by
  constructor
  · intro h
    unfold decode at h
    split at h
    case isTrue hop =>
      cases h
      exact ⟨hop, layout_fields_iff.mp ⟨rfl, rfl⟩⟩
    split at h
    case isTrue hop =>
      obtain ⟨harg, rfl⟩ := decodeZ_eq_ok_iff.mp h
      exact ⟨hop, harg⟩
    split at h
    case isTrue hop =>
      obtain ⟨harg, rfl⟩ := decodeZ_eq_ok_iff.mp h
      exact ⟨hop, harg⟩
    split at h
    case isTrue hop =>
      cases h
      exact ⟨hop, rfl⟩
    case isFalse => cases h
  · rintro ⟨hop, harg⟩
    cases i with
    | layout a p =>
      obtain ⟨ha, hp⟩ := layout_fields_iff.mpr harg
      rw [decode_of_opcode_layout hop, ha, hp]
    | alloc => exact (decode_of_opcode_alloc hop).trans (decodeZ_eq_ok_iff.mpr ⟨harg, rfl⟩)
    | init => exact (decode_of_opcode_init hop).trans (decodeZ_eq_ok_iff.mpr ⟨harg, rfl⟩)
    | xlate va => rw [decode_of_opcode_xlate hop, harg]; rfl

/-- Settles O1: the word of `i` has the two fields of `i`. -/
theorem encodeThenDecode : Obligations.EncodeThenDecode := by
  intro i
  refine ⟨by cases i <;> rfl, decode_eq_ok_iff.mpr ?_⟩
  rw [encode_eq_append]
  exact ⟨opcodeField_append _ _, argField_append _ _⟩

/-- Settles O2: a word that decodes to `i` has the fields of `i`, and a word is given by its fields. -/
theorem decodeThenEncode : Obligations.DecodeThenEncode := by
  intro w i h
  obtain ⟨hop, harg⟩ := decode_eq_ok_iff.mp h
  rw [encode_eq_append]
  exact commandWord_ext ((opcodeField_append _ _).trans hop.symm) ((argField_append _ _).trans harg.symm)

/-- Settles O5: six closed words, by evaluation of the decoder. -/
theorem workedEncodingsDecode : Obligations.WorkedEncodingsDecode := by
  unfold Obligations.WorkedEncodingsDecode
  decide

end Sys2Proof

/-! ## Response words, trace records and shifts as numbers (30_encoding.md R90, R94; 43_arithmetic_laws.md R181 to R183) -/

namespace Sys2Proof
namespace Machine

/-- Settles O6: both fields of a response word are read back, so the word determines them. -/
theorem responseWordFields : Obligations.ResponseWordFields := by
  refine ⟨fun st data => ⟨respWord_toNat st data, respStatus_respWord st data, respData_respWord st data, ?_⟩,
    rfl, rfl, rfl, rfl, rfl, rfl, rfl, rfl⟩
  exact fun st' data' => respWord_inj.mp

/-- Settles O7: the low half of an entry's record is the entry without its reserved bits. -/
theorem traceRecordFields : Obligations.TraceRecordFields := fun vpn e =>
  ⟨by rw [traceEntry_toNat, unreserved_toNat], traceNoEntry_toNat vpn⟩

theorem lshr_toNat {N : Nat} (a : BitVec N) (n : Nat) : (lshr a n).toNat = a.toNat / 2 ^ n := by
  rw [lshr, BitVec.toNat_ushiftRight, Nat.shiftRight_eq_div_pow]

theorem shl_toNat {N : Nat} (a : BitVec N) (n : Nat) : (shl a n).toNat = a.toNat * 2 ^ n % 2 ^ N := by
  rw [shl, BitVec.toNat_shiftLeft, Nat.shiftLeft_eq]

/-- Settles O58: from the width on the quotient is below 1 and the product a multiple of 2^N. -/
theorem shiftLaws : Obligations.ShiftLaws := by
  refine fun N a n => ⟨lshr_toNat a n, shl_toNat a n, fun hn => ⟨?right, ?left⟩⟩
  case right => exact BitVec.ushiftRight_eq_zero hn
  case left => exact BitVec.shiftLeft_eq_zero hn

theorem log2Exact_eq_some_iff {p : Nat} {k : Fin 13} : log2Exact p = some k ↔ p = 2 ^ k.val :=
  ⟨log2Exact_eq_some, fun h => by rw [h, log2Exact_pow]⟩

/-- The logarithm has no value exactly off the thirteen legal page sizes (43_arithmetic_laws.md R183, log 20). -/
theorem log2Exact_eq_none_iff {p : Nat} : log2Exact p = none ↔ ∀ k : Fin 13, p ≠ 2 ^ k.val := by
  simp only [Option.eq_none_iff_forall_ne_some, Ne, log2Exact_eq_some_iff]

/-- Settles O59: a power of two of at most 4096 has an exponent of at most 12. -/
theorem logarithmIsExact : Obligations.LogarithmIsExact := by
  refine fun p => ⟨fun _ => log2Exact_eq_some_iff, fun _ hmax => ?inRange, fun h => ?offPowers⟩
  case inRange =>
    rw [log2Exact_eq_none_iff]
    refine ⟨fun h k hk => ?_, fun h k => h k.val⟩
    have hlt : k < 13 := (Nat.pow_lt_pow_iff_right (a := 2) (by decide)).mp (by omega)
    exact h ⟨k, hlt⟩ hk
  case offPowers => exact log2Exact_eq_none_iff.mpr fun k => h k.val

end Machine
end Sys2Proof

/-! ## Steps: the response to every word, and reset (30_encoding.md R80, R90; 70_reset_and_hazards.md R240, R253) -/

namespace Sys2Proof
namespace Machine

theorem step_of_no_input {s : State} (h : s.inputs = []) : step s = .next s := by
  rw [step, h]

theorem step_of_reset {s : State} {rest : List HostInput} (h : s.inputs = .reset :: rest) :
    step s = .next (hardwareReset (s.withInputs rest)) := by
  rw [step, h]

theorem tableAccess_of_not_owned {s : State} (ho : s.ptbrOwn = false) (addr : Nat) :
    tableAccess s addr = .error .tableNotOwned := by
  simp [tableAccess, ho]

/-- Without an owned table every read stops (10_state.md R32, log 6). -/
theorem memRead_of_not_owned {s : State} (ho : s.ptbrOwn = false) (addr : Nat) :
    memRead s addr = .error .tableNotOwned := by
  rw [memRead, tableAccess_of_not_owned ho]

/-- Every accepted word, legal or not, adds one response, with data only under XLATE and OK, and touches neither the inputs
nor the parameters. -/
theorem runCommand_response {w : CommandWord} {s t : State} (h : runCommand w s = .next t) :
    ∃ st data, t.responses = s.responses ++ [respWord st data]
      ∧ (data ≠ 0 → st = .ok ∧ ∃ va, decode w = .ok (.xlate va)) ∧ t.inputs = s.inputs ∧ t.params = s.params := by
  cases hd : decode w with
  | ok i =>
    rw [runCommand_of_decode_ok hd] at h
    obtain ⟨st, data, hresp, hdata, hin, hpar⟩ := exec_response h
    refine ⟨st, data, hresp, fun hne => ?_, hin, hpar⟩
    obtain ⟨hst, va, rfl⟩ := hdata hne
    exact ⟨hst, va, rfl⟩
  | error e =>
    rw [runCommand_of_decode_error hd] at h
    cases h
    exact ⟨_, 0, rfl, fun hne => absurd rfl hne, rfl, rfl⟩

/-- What a step does with each of the three things that can be presented. -/
theorem step_next {s t : State} (h : step s = .next t) :
    t = s ∨ (∃ rest, s.inputs = .reset :: rest ∧ t = hardwareReset (s.withInputs rest))
      ∨ ∃ w rest, s.inputs = .command w :: rest ∧ runCommand w (s.withInputs rest) = .next t := by
  cases hin : s.inputs with
  | nil =>
    rw [step_of_no_input hin] at h
    cases h
    exact .inl rfl
  | cons input rest =>
    cases input with
    | reset =>
      rw [step_of_reset hin] at h
      cases h
      exact .inr (.inl ⟨rest, rfl, rfl⟩)
    | command w =>
      rw [step_of_command hin] at h
      exact .inr (.inr ⟨w, rest, rfl, h⟩)

/-- One more response keeps the stream legal, if it has data only under OK (30_encoding.md R90). -/
theorem State.ResponsesOk.append {s t : State} (hs : s.ResponsesOk) {st : Status} {data : Word}
    (hresp : t.responses = s.responses ++ [respWord st data]) (hdata : data ≠ 0 → st = .ok) : t.ResponsesOk := by
  intro rw hrw
  rw [hresp] at hrw
  rcases List.mem_append.mp hrw with hold | hnew
  · exact hs rw hold
  · exact ⟨st, data, List.mem_singleton.mp hnew, fun hst => by_contra fun hne => hst (hdata hne)⟩

theorem statusCode_le (st : Status) : statusCode st ≤ 0x07 := by
  cases st <;> decide

/-- The legal words of R90 and R91 by their fields. -/
theorem State.ResponsesOk.fields {s : State} (hs : s.ResponsesOk) {rw : ResponseWord} (hrw : rw ∈ s.responses) :
    respStatus rw ≤ 0x07 ∧ (respStatus rw ≠ 0 → respData rw = 0) := by
  obtain ⟨st, data, rfl, hdata⟩ := hs rw hrw
  rw [respStatus_respWord, respData_respWord]
  refine ⟨statusCode_le st, fun hne => hdata ?_⟩
  rintro rfl
  exact hne rfl

/-- Settles O12: a step leaves the stream, empties it, or appends the one response of a word. -/
theorem stepKeepsResponsesLegal : Obligations.StepKeepsResponsesLegal := by
  intro s t hs h
  have ht : t.ResponsesOk := by
    rcases step_next h with rfl | ⟨rest, -, rfl⟩ | ⟨w, rest, -, hrun⟩
    · exact hs
    · exact List.forall_mem_nil _
    · obtain ⟨st, data, hresp, hdata, -⟩ := runCommand_response hrun
      exact hs.append hresp fun hne => (hdata hne).1
  exact ⟨ht, fun rw hrw => ht.fields hrw⟩

/-- Settles O11: the step takes the word off the inputs and runs it. -/
theorem oneResponsePerCommand : Obligations.OneResponsePerCommand := by
  intro s t w rest hin h
  rw [step_of_command hin] at h
  obtain ⟨st, data, hresp, hdata, hinputs, -⟩ := runCommand_response h
  exact ⟨hinputs, st, data, hresp, hdata⟩

/-- Settles O57: a reset copies the parameters, and no command writes them. -/
theorem parametersNeverChange : Obligations.ParametersNeverChange := by
  intro s t h
  rcases step_next h with rfl | ⟨rest, -, rfl⟩ | ⟨w, rest, -, hrun⟩
  · rfl
  · rfl
  · obtain ⟨-, -, -, -, -, hpar⟩ := runCommand_response hrun
    exact hpar

/-- Settles O8: a word that decodes is run on the state without it, and with nothing presented nothing happens. -/
theorem stepRunsDecodedCommand : Obligations.StepRunsDecodedCommand :=
  ⟨fun _ _ _ _ hin hd => (step_of_command hin).trans (runCommand_of_decode_ok hd _), fun _ => step_of_no_input⟩

/-- Settles O9: reset writes every element but the parameters and the inputs, and without ownership no access succeeds. -/
theorem resetReleasesTable : Obligations.ResetReleasesTable := fun _ _ hin =>
  ⟨_, step_of_reset hin, rfl, rfl, rfl, rfl, rfl, rfl, rfl, memRead_of_not_owned rfl⟩

/-- Settles O10: the fields of `State.reset` and the codes of PHASE, each by evaluation. -/
theorem resetValues : Obligations.ResetValues :=
  ⟨rfl, rfl, rfl, rfl, rfl, rfl, rfl, rfl, rfl, rfl, rfl, rfl⟩

/-- Settles O51: after reset no table exists, nothing is listed, and no response was given. -/
theorem resetMeetsInvariants : Obligations.ResetMeetsInvariants :=
  ⟨by decide, Memory.zeroed_wf _, List.forall_mem_nil _⟩

end Machine
end Sys2Proof

/-! ## Table accesses and the canonical form (20_memory.md R50 to R54, log 5) -/

namespace Sys2Proof
namespace Machine

/-- The state with `v` written to TBL[i] (20_memory.md R54). -/
def State.writeEntry (s : State) (i : Nat) (v : Word) : State := { s with tbl := s.tbl.write s.numPtes.toNat i v }

section
variable {s t : State} {addr : Nat} {v : Word}

theorem State.writeEntry_entry (h : s.tbl.wf s.numPtes.toNat) (i j : Nat) :
    (s.writeEntry i v).entry j = if j = i then v else s.entry j := Memory.read_write h.1 _ i v j

/-- MemWrite succeeds at the offsets of the entries of an owned table, and writes that entry (20_memory.md R54). -/
theorem memWrite_eq_ok_iff :
    memWrite s addr v = .ok t ↔
      ∃ i < s.numPtes.toNat, s.ptbrOwn = true ∧ addr = pteOffset i ∧ t = s.writeEntry i v := by
  constructor
  · intro h
    unfold memWrite at h
    cases hacc : tableAccess s addr with
    | error f => simp only [hacc] at h; cases h
    | ok i =>
      simp only [hacc] at h
      cases h
      obtain ⟨ho, haddr, hi⟩ := tableAccess_ok.mp hacc
      exact ⟨i, hi, ho, haddr.trans (pteOffset_eq i).symm, rfl⟩
  · rintro ⟨i, hi, ho, rfl, rfl⟩
    exact memWrite_pteOffset v ho hi

/-- Off the entries of an owned table every read stops (20_memory.md R53, log 8). -/
theorem memRead_of_not_entry (ho : s.ptbrOwn = true) (h : ∀ i < s.numPtes.toNat, addr ≠ pteOffset i) :
    memRead s addr = .error .tableAddress := by
  have hacc : tableAccess s addr = .error .tableAddress := by
    rw [tableAccess, if_pos ho, if_neg]
    rintro ⟨halign, hlt⟩
    exact h _ hlt (by rw [pteOffset_eq]; omega)
  rw [memRead, hacc]

end

/-- Settles O56: MemWrite writes one entry, and a read at another offset reads another entry. -/
theorem tableWriteThenRead : Obligations.TableWriteThenRead := by
  intro s addr v hwf
  refine ⟨⟨?domain, ?succeeds⟩, ?laws⟩
  case domain =>
    rintro ⟨t, h⟩
    obtain ⟨i, hi, ho, rfl, -⟩ := memWrite_eq_ok_iff.mp h
    rw [pteOffset_eq]
    exact ⟨ho, by omega, by omega⟩
  case succeeds =>
    rintro ⟨ho, halign, hlt⟩
    exact ⟨_, memWrite_eq_ok_iff.mpr ⟨addr / 4, hlt, ho, by rw [pteOffset_eq]; omega, rfl⟩⟩
  case laws =>
    intro t h
    obtain ⟨i, hi, ho, rfl, rfl⟩ := memWrite_eq_ok_iff.mp h
    refine ⟨?readBack, fun b hb => memRead_congr ?own ?size b fun j hj => ?others, rfl, Memory.write_wf hwf hi v⟩
    case readBack =>
      rw [memRead_pteOffset (s := s.writeEntry i v) ho hi, State.writeEntry_entry hwf, if_pos rfl]
    case own | size => rfl
    case others =>
      have hne : j ≠ i := by
        rintro rfl
        exact hb (hj.trans (pteOffset_eq j).symm)
      rw [State.writeEntry_entry hwf, if_neg hne]

/-- A canonical table lists nothing beyond its size. -/
theorem Memory.lookup_of_size_le {m : Memory} {n i : Nat} (h : m.wf n) (hi : n ≤ i) : lookupCell m.cells i = none := by
  cases hl : lookupCell m.cells i with
  | none => rfl
  | some v =>
    obtain ⟨-, hcells⟩ := h
    exact absurd (hcells _ (lookupCell_isSome_mem hl)).1 (Nat.not_lt.mpr hi)

/-- Settles O55: what a canonical table lists at an index is determined by the fill and the word read there. -/
theorem canonicalTablesEqual : Obligations.CanonicalTablesEqual := by
  intro m m' n hwf hwf' hfill hread
  have hunlisted (i : Nat) : m.unlisted n i = m'.unlisted n i := by rw [Memory.unlisted, Memory.unlisted, hfill]
  have hlookup (i : Nat) : lookupCell m.cells i = lookupCell m'.cells i := by
    rcases Nat.lt_or_ge i n with hi | hi
    · rw [Memory.lookup_of_wf hwf, Memory.lookup_of_wf hwf', hread i hi, hunlisted]
    · rw [Memory.lookup_of_size_le hwf hi, Memory.lookup_of_size_le hwf' hi]
  have hcells : m.cells = m'.cells := lookupCell_ext _ _ hwf.1 hwf'.1 hlookup
  exact congrArg₂ Memory.mk hfill hcells

/-- No command leaves the canonical form: the table stays, or is zeroed, or its lower half is filled. -/
theorem CommandWrites.keeps_wf {s u : State} {st : Status} (h : CommandWrites s st u) (hwf : s.tbl.wf s.numPtes.toNat) :
    u.tbl.wf u.numPtes.toNat := by
  cases h with
  | nothing | allocFailure | layout => exact hwf
  | alloc n => exact Memory.zeroed_wf _
  | init => exact Memory.fillLower_wf hwf

theorem step_of_head_reset {s t : State} (h : step s = .next t) (hr : s.inputs.head? = some .reset) :
    ∃ rest, t = hardwareReset (s.withInputs rest) := by
  obtain ⟨rest, hin⟩ := List.head?_eq_some_iff.mp hr
  rw [step_of_reset hin] at h
  cases h
  exact ⟨rest, rfl⟩

/-- Settles O54: a reset leaves the empty table, and any other step what a command writes. -/
theorem stepKeepsTableCanonical : Obligations.StepKeepsTableCanonical := by
  intro s t hwf h
  by_cases hr : s.inputs.head? = some .reset
  case pos =>
    obtain ⟨rest, rfl⟩ := step_of_head_reset h hr
    exact Memory.zeroed_wf _
  case neg =>
    rcases step_writes h hr with rfl | ⟨rest, st, data, ts, u, hw, rfl⟩
    · exact hwf
    · exact hw.keeps_wf hwf

/-- PHASE after a command: kept, or one forward move (10_state.md R23). -/
theorem CommandWrites.phase {s u : State} {st : Status} (h : CommandWrites s st u) :
    u.phase = s.phase ∨ (s.phase = .reset ∧ u.phase = .laidOut) ∨ (s.phase = .laidOut ∧ u.phase = .allocated)
      ∨ (s.phase = .laidOut ∧ u.phase = .failed) ∨ (s.phase = .allocated ∧ u.phase = .ready) := by
  cases h with
  | nothing => exact .inl rfl
  | layout a p k hp => exact .inr (.inl ⟨hp, rfl⟩)
  | alloc n hp => exact .inr (.inr (.inl ⟨hp, rfl⟩))
  | allocFailure hp => exact .inr (.inr (.inr (.inl ⟨hp, rfl⟩)))
  | init hp => exact .inr (.inr (.inr (.inr ⟨hp, rfl⟩)))

/-- Settles O45: a reset sets PHASE, and any other step moves it as a command does. -/
theorem phaseNeverMovesBack : Obligations.PhaseNeverMovesBack := by
  refine fun s t h => ⟨fun hr => ?reset, fun hr => ?command⟩
  case reset =>
    obtain ⟨rest, rfl⟩ := step_of_head_reset h hr
    rfl
  case command =>
    rcases step_writes h hr with rfl | ⟨rest, st, data, ts, u, hw, rfl⟩
    · exact .inl rfl
    · exact hw.phase

end Machine
end Sys2Proof

/-! ## LAYOUT, ALLOC and INIT: frames, counts, and the loops of the pseudocode (40_geometry.md; 41_table_alloc_init.md) -/

namespace Sys2Proof
namespace Machine

/-- Settles O16: the constants LAYOUT latches are those of the exponent, whatever the address width. -/
theorem layoutDependsOnPageSizeOnly : Obligations.LayoutDependsOnPageSizeOnly := fun _ _ _ _ _ _ hp hp' hv hv' =>
  ⟨_, _, exec_layout_of_valid hp hv, exec_layout_of_valid hp' hv', rfl, rfl, rfl, rfl, rfl⟩

/-- Settles O18: of LAYOUT's three answers only OK writes more than the response, and that the layout registers and PHASE. -/
theorem layoutFrame : Obligations.LayoutFrame := by
  intro s t a p h
  rcases execLayout_cases h with ⟨-, rfl⟩ | ⟨-, -, rfl⟩ | ⟨k, -, -, rfl⟩ <;>
    exact ⟨rfl, rfl, rfl, rfl, rfl, rfl, fun _ => rfl⟩

/-- A count within TABLE_CAP fits the 33 bits of NUM_PTES (43_arithmetic_laws.md R184, R189). -/
theorem numPtes_toNat_of_le_cap {n : Nat} {cap : BitVec 33} (h : n ≤ cap.toNat) : (BitVec.ofNat 33 n).toNat = n :=
  (BitVec.toNat_ofNat n 33).trans (Nat.mod_eq_of_lt (Nat.lt_of_le_of_lt h cap.isLt))

/-- Settles O21: the count is a positive number within TABLE_CAP, hence within 2^32. -/
theorem entryCountExact : Obligations.EntryCountExact := by
  intro s hi hp hcap
  refine ⟨_, exec_alloc_of_count_le hp (hi.psb_le_asb (by rw [hp]; decide)) hcap, ?_⟩
  rw [State.pushResponse_numPtes, State.allocateTable_numPtes, entryCount, numPtes_toNat_of_le_cap hcap]
  obtain ⟨⟨-, hmax⟩, -⟩ := hi
  exact ⟨rfl, Nat.one_le_two_pow, Nat.le_trans hcap hmax⟩

/-- Settles O22: the failed ALLOC writes PHASE only, and no command is allowed in FAILED. -/
theorem allocFailureIsTerminal : Obligations.AllocFailureIsTerminal := by
  refine ⟨fun s hi hp hcap => ?fails, fun s i hp => exec_of_phase_ne ?terminal⟩
  case fails =>
    have ho : s.ptbrOwn = false := by
      obtain ⟨-, -, -, hnot, -⟩ := hi
      exact hnot (by rw [hp]; decide)
    exact ⟨_, exec_alloc_of_count_gt hp (hi.psb_le_asb (by rw [hp]; decide)) hcap, rfl, rfl, ho, rfl, rfl,
      memRead_of_not_owned ho⟩
  case terminal =>
    rw [hp]
    cases i <;> exact nofun

/-- Settles O23: of ALLOC's three answers only OK writes the table and its registers, and none writes the layout. -/
theorem allocFrame : Obligations.AllocFrame := by
  intro s t h
  rcases execAlloc_cases h with ⟨-, rfl⟩ | ⟨-, -, -, rfl⟩ | ⟨-, -, -, rfl⟩
  · exact ⟨⟨rfl, rfl, rfl, rfl, rfl, rfl, rfl⟩, rfl, rfl, rfl, fun _ => ⟨rfl, rfl, rfl, fun _ => rfl⟩,
      fun hok => absurd hok (by simp)⟩
  · exact ⟨⟨rfl, rfl, rfl, rfl, rfl, rfl, rfl⟩, rfl, rfl, rfl, fun _ => ⟨rfl, rfl, rfl, fun _ => rfl⟩,
      fun hok => absurd hok (by simp)⟩
  · exact ⟨⟨rfl, rfl, rfl, rfl, rfl, rfl, rfl⟩, rfl, rfl, rfl, fun hne => absurd rfl hne,
      fun _ _ hoff => memRead_of_not_entry rfl hoff⟩

/-- The state in which ALLOC's zero fill starts: the count and the ownership are written (41_table_alloc_init.md R130). -/
def State.beforeZeroFill (s : State) (n : Nat) : State := { s with numPtes := BitVec.ofNat 33 n, ptbrOwn := true }

theorem execAllocLoop_of_phase_ne {s : State} (hp : s.phase ≠ .laidOut) :
    execAllocLoop s = .next (s.pushResponse (respWord .badSequence 0)) := if_neg hp

theorem execAllocLoop_of_count_gt {s : State} (hp : s.phase = .laidOut) (hle : s.psb.toNat ≤ s.asb.toNat)
    (hcap : s.params.tableCap.toNat < entryCount s.asb.toNat s.psb.toNat) :
    execAllocLoop s = .next ((s.setPhase .failed).pushResponse (respWord .allocFailure 0)) := by
  rw [execAllocLoop, if_pos hp, if_pos hle, if_pos hcap]
  rfl

theorem execAllocLoop_of_count_le {s t : State} (hp : s.phase = .laidOut) (hle : s.psb.toNat ≤ s.asb.toNat)
    (hcap : entryCount s.asb.toNat s.psb.toNat ≤ s.params.tableCap.toNat)
    (hloop : writeLoop (fun _ => 0) (entryCount s.asb.toNat s.psb.toNat)
      (s.beforeZeroFill (entryCount s.asb.toNat s.psb.toNat)) = .ok t) :
    execAllocLoop s = .next ((t.setPhase .allocated).pushResponse (respWord .ok 0)) := by
  rw [State.beforeZeroFill] at hloop
  rw [execAllocLoop, if_pos hp, if_pos hle, if_neg (Nat.not_lt.mpr hcap), hloop]
  rfl

theorem execInitLoop_of_loop {s t : State} (hp : s.phase = .allocated)
    (hloop : writeLoop initWord (s.numPtes.toNat / 2) s = .ok t) :
    execInitLoop s = .next ((t.setPhase .ready).pushResponse (respWord .ok 0)) := by
  rw [execInitLoop, if_pos hp, hloop]
  rfl

/-- ALLOC stops only where there is no entry count (41_table_alloc_init.md R131, log 9). -/
theorem exec_alloc_fault {s : State} {f : Fault} (h : exec .alloc s = .fault f) :
    s.phase = .laidOut ∧ s.asb.toNat < s.psb.toNat ∧ f = .noEntryCount := by
  rw [exec, execAlloc] at h
  split at h
  case isTrue hp =>
    split at h
    case isTrue hle => split at h <;> cases h
    case isFalse hlt =>
      cases h
      exact ⟨hp, Nat.lt_of_not_le hlt, rfl⟩
  case isFalse => cases h

/-- Settles O24: the loop of as many zero words as the table has entries leaves each of them zero. -/
theorem allocMatchesLoop : Obligations.AllocMatchesLoop := by
  refine fun s hwf => ⟨fun t h => ?next, fun f h => ?stops⟩
  case next =>
    rcases execAlloc_cases h with ⟨hp, rfl⟩ | ⟨hp, hle, hcap, rfl⟩ | ⟨hp, hle, hcap, rfl⟩
    · exact ⟨_, execAllocLoop_of_phase_ne hp, rfl, fun _ _ => rfl⟩
    · exact ⟨_, execAllocLoop_of_count_gt hp hle hcap, rfl, fun _ _ => rfl⟩
    · have hn := numPtes_toNat_of_le_cap hcap
      obtain ⟨m, hloop, -, hread⟩ := writeLoop_ok (fun _ => 0) (entryCount s.asb.toNat s.psb.toNat)
        (s.beforeZeroFill (entryCount s.asb.toNat s.psb.toNat)) rfl (Nat.le_of_eq hn.symm) hwf.1
      refine ⟨_, execAllocLoop_of_count_le hp hle hcap hloop, rfl, fun i hi => ?_⟩
      exact (hread i).trans (if_pos (Nat.lt_of_lt_of_eq hi hn))
  case stops =>
    obtain ⟨hp, hlt, rfl⟩ := exec_alloc_fault h
    rw [execAllocLoop, if_pos hp, if_neg (Nat.not_le.mpr hlt)]

/-- Settles O28: the loop over the lower half leaves the words of INIT's one fill. -/
theorem initMatchesLoop : Obligations.InitMatchesLoop := by
  intro s t hwf h
  rcases execInit_cases h with ⟨hp, rfl⟩ | ⟨hp, ho, rfl⟩
  · exact ⟨_, if_neg hp, rfl, fun _ _ => rfl⟩
  · obtain ⟨m, hloop, -, hread⟩ := writeLoop_ok initWord (s.numPtes.toNat / 2) s ho (Nat.div_le_self _ _) hwf.1
    exact ⟨_, execInitLoop_of_loop hp hloop, rfl, fun i _ => (hread i).trans (State.fillTable_entry s i).symm⟩

/-- Settles O27: the fill leaves the words at and above NUM_PTES div 2, and an offset reads one word. -/
theorem initFrame : Obligations.InitFrame := by
  intro s t h
  rcases execInit_cases h with ⟨-, rfl⟩ | ⟨hp, -, rfl⟩
  · exact ⟨⟨rfl, rfl, rfl, rfl, rfl, rfl, rfl⟩, ⟨rfl, rfl⟩, rfl, rfl, rfl, fun _ _ => rfl,
      fun _ => ⟨rfl, rfl, fun _ => rfl⟩⟩
  · refine ⟨⟨rfl, rfl, rfl, rfl, rfl, rfl, rfl⟩, ⟨rfl, rfl⟩, rfl, rfl, rfl, fun addr hoff => ?_,
      fun hne => absurd hp hne⟩
    refine memRead_congr ?own ?size addr fun i haddr => ?upper
    case own | size => rfl
    have hupper : ¬ i < s.numPtes.toNat / 2 := fun hlt => hoff i hlt (haddr.trans (pteOffset_eq i).symm)
    rw [State.pushResponse_entry, State.fillTable_entry, if_neg hupper]

/-- The words INIT leaves in an ALLOCATED state of the invariant (41_table_alloc_init.md R137). -/
theorem State.Inv.fillTable_entry {s : State} (hi : s.Inv) (hp : s.phase = .allocated) (i : Nat) :
    s.fillTable.entry i = if i < s.numPtes.toNat / 2 then initWord i else 0 := by
  rw [State.fillTable_entry, State.entry_of_allocated hi hp]

/-- Settles O26: the words INIT leaves depend on the index and NUM_PTES alone. -/
theorem initializedTable : Obligations.InitializedTable := by
  intro s hi hp
  refine ⟨_, exec_init_of_owned hp (hi.owned (.inl hp)), rfl, rfl, ?closedForm, ?sameSize⟩
  case closedForm =>
    intro i _
    simp only [State.pushResponse_numPtes, State.fillTable_numPtes, State.pushResponse_entry, hi.fillTable_entry hp]
    refine ⟨fun hge => if_neg (Nat.not_lt.mpr hge), fun hlt hmod => ?fourth, fun hlt hmod => ?other⟩
    case fourth => rw [if_pos hlt, initWord_toNat, if_pos hmod]
    case other => rw [if_pos hlt, initWord_toNat, if_neg hmod]
  case sameSize =>
    intro s' t' hi' hp' hn h i _
    rw [exec_init_of_owned hp' (hi'.owned (.inl hp'))] at h
    cases h
    rw [State.pushResponse_entry, State.pushResponse_entry, hi.fillTable_entry hp, hi'.fillTable_entry hp', hn]

theorem ptePfn_initWord (i : Nat) : (ptePfn (initWord i)).toNat = 2 * i % 2 ^ 20 := by
  rw [ptePfn_toNat, initWord_toNat]
  split <;> omega

/-- The frame number wraps at 2^20 and the flags repeat every fourth entry (41_table_alloc_init.md R135, R136). -/
theorem initWord_add_period (i : Nat) : initWord (i + 2 ^ 19) = initWord i := by
  apply BitVec.eq_of_toNat_eq
  have hmod : (i + 2 ^ 19) % 4 = i % 4 := by omega
  have hpfn : 2 * (i + 2 ^ 19) % 2 ^ 20 = 2 * i % 2 ^ 20 := by
    rw [Nat.mul_add, ← Nat.pow_succ', Nat.add_mod_right]
  rw [initWord_toNat, initWord_toNat, hmod, hpfn]

/-- Settles O29: the filled half of a READY table holds INIT's words. -/
theorem frameFieldWraps : Obligations.FrameFieldWraps := by
  intro s hi hp
  have hpfn (i : Nat) (hlt : i < s.numPtes.toNat / 2) : (ptePfn (s.entry i)).toNat = 2 * i % 2 ^ 20 := by
    rw [State.entry_of_ready hi hp, if_pos hlt, ptePfn_initWord]
  refine ⟨hpfn, fun hsmall i hlt => ?small, fun i hlt => ?period⟩
  case small =>
    rw [hpfn i hlt]
    exact Nat.mod_eq_of_lt (by omega)
  case period =>
    rw [State.entry_of_ready hi hp, State.entry_of_ready hi hp, if_pos hlt, if_pos (by omega), initWord_add_period]

end Machine
end Sys2Proof

/-! ## XLATE by arithmetic, and its trace (42_translate.md R151 to R165) -/

namespace Sys2Proof
namespace Machine

section
variable {s t : State}

/-- A VPN is at or above 2^(ASB-PSB) exactly for the addresses from 2^ASB on (42_translate.md R152). -/
theorem State.LayoutOk.count_le_vpn_iff (h : s.LayoutOk) (va : Word) :
    2 ^ (s.asb.toNat - s.psb.toNat) ≤ va.toNat / 2 ^ s.psb.toNat ↔ 2 ^ s.asb.toNat ≤ va.toNat := by
  obtain ⟨-, ⟨-, hle⟩, -⟩ := h
  rw [Nat.le_div_iff_mul_le (Nat.two_pow_pos _), Nat.pow_sub_mul_pow 2 hle]

/-- Settles O33: the VPN is a quotient by 2^PSB and the count 2^(ASB-PSB), and no address reaches 2^32. -/
theorem outOfRangeBeyondAddressSpace : Obligations.OutOfRangeBeyondAddressSpace := by
  rintro s va hl ⟨hn, -, -⟩
  have hrange : s.numPtes.toNat ≤ (extractVpn s va).toNat ↔ 2 ^ s.asb.toNat ≤ va.toNat := by
    rw [hn, hl.extractVpn_toNat, hl.count_le_vpn_iff]
  refine ⟨hl.extractVpn_toNat va, hrange, fun hasb => Nat.lt_of_not_le fun hle => ?_⟩
  rw [hrange, hasb] at hle
  exact absurd va.isLt (Nat.not_lt.mpr hle)

theorem State.LayoutOk.pfn_mul_lt (h : s.LayoutOk) (pfn : BitVec 20) : pfn.toNat * 2 ^ s.psb.toNat < 2 ^ 32 := by
  obtain ⟨-, ⟨hpsb, -⟩, -⟩ := h
  have hpow : 2 ^ s.psb.toNat ≤ 2 ^ 12 := Nat.pow_le_pow_right (by decide) hpsb
  calc pfn.toNat * 2 ^ s.psb.toNat ≤ pfn.toNat * 2 ^ 12 := Nat.mul_le_mul_left _ hpow
    _ < 2 ^ 20 * 2 ^ 12 := Nat.mul_lt_mul_of_pos_right pfn.isLt (by decide)
    _ = 2 ^ 32 := (Nat.pow_add 2 20 12).symm

/-- The shifted frame number has its low PSB bits zero and the offset no others, so the OR is a sum (42_translate.md R159). -/
theorem State.LayoutOk.physicalAddress_toNat (h : s.LayoutOk) (pfn : BitVec 20) (va : Word) :
    (physicalAddress s pfn va).toNat = pfn.toNat * 2 ^ s.psb.toNat + va.toNat % 2 ^ s.psb.toNat := by
  have hlt := h.pfn_mul_lt pfn
  have hoff := h.extractOffset_toNat va
  obtain ⟨-, -, -, ⟨-, hpfn⟩, -⟩ := h
  have hframe : (pfn.setWidth 32).toNat = pfn.toNat := by
    rw [BitVec.toNat_setWidth]
    omega
  rw [physicalAddress, BitVec.toNat_or, shl_toNat, hoff, hpfn, hframe, Nat.mod_eq_of_lt hlt, Nat.mul_comm,
    Nat.two_pow_add_eq_or_of_lt (Nat.mod_lt _ (Nat.two_pow_pos _))]

/-- Settles O34: the three facts hold of every frame number, whatever entry it is read from. -/
theorem reconstructionIsSum : Obligations.ReconstructionIsSum := fun _ e va hl =>
  ⟨hl.pfn_mul_lt (ptePfn e), hl.extractOffset_toNat va, hl.physicalAddress_toNat (ptePfn e) va⟩

/-- Every filled entry is valid, and accessible unless its index is a multiple of 4 (41_table_alloc_init.md R135). -/
theorem permission_initWord (i : Nat) : permission (initWord i) = if i % 4 = 0 then .notAccessible else .ok := by
  split
  case isTrue hmod =>
    rw [permission_notAccessible, initWord_toNat, if_pos hmod]
    omega
  case isFalse hmod =>
    rw [permission_ok, initWord_toNat, if_neg hmod]
    omega

/-- On a filled entry of a READY table of the invariant XLATE answers what INIT's word decides. -/
theorem State.Inv.xlateAnswers_filled (hi : s.Inv) (hp : s.phase = .ready) {va : Word}
    (hlt : (extractVpn s va).toNat < s.numPtes.toNat / 2) :
    XlateAnswers s va (permission (initWord (extractVpn s va).toNat))
      (entryAnswer s va (initWord (extractVpn s va).toNat)) := by
  have hanswer := hi.xlateAnswers_entry (va := va) hp (by omega)
  rwa [State.entry_of_ready hi hp, if_pos hlt] at hanswer

/-- Settles O32: one answer for each range of the VPN, with the words of the filled half by their closed form. -/
theorem xlateClosedForm : Obligations.XlateClosedForm := by
  rintro s va _ _ _ _ _ hi hp rfl rfl rfl rfl rfl
  have hl := hi.layoutOk_of_ready hp
  have hrange := hl.count_le_vpn_iff va
  rw [← hi.numPtes_of_ready hp, ← hl.extractVpn_toNat] at hrange ⊢
  refine ⟨fun hge => ?beyond, fun hlt hge => ?upper, fun hlt hmod => ?fourth, fun hlt hmod => ?other, ?iff, fun ha => ?full⟩
  case beyond => exact xlateAnswers_outOfRange hp (hrange.mpr hge)
  case upper =>
    refine xlateAnswers_notValid_of_entry_zero hp (hi.owned (.inr hp)) hlt ?_
    rw [State.entry_of_ready hi hp, if_neg (Nat.not_lt.mpr hge)]
  case fourth =>
    have hanswer := hi.xlateAnswers_filled hp hlt
    rwa [entryAnswer, permission_initWord, if_pos hmod, if_neg (by decide)] at hanswer
  case other =>
    have hanswer := hi.xlateAnswers_filled hp hlt
    rw [entryAnswer, permission_initWord, if_neg hmod, if_pos rfl] at hanswer
    rwa [← ptePfn_initWord, ← hl.physicalAddress_toNat, BitVec.ofNat_toNat, BitVec.setWidth_eq]
  case iff => exact Iff.trans Nat.not_le.symm ((not_congr hrange).symm.trans Nat.not_le)
  case full =>
    rw [ha]
    exact va.isLt

/-- Settles O41: a translation writes the two streams, which no table access reads. -/
theorem xlateFrame : Obligations.XlateFrame := by
  intro s t va h
  obtain ⟨st, data, ts, rfl⟩ := exec_xlate_next h
  exact ⟨rfl, fun _ => rfl⟩

/-! ### Trace records (42_translate.md R160) -/

/-- The record XLATE presents in READY, whether or not TRACE_EN lets it out (42_translate.md R160). -/
def xlateRecord (s : State) (va : Word) : TraceWord :=
  if (extractVpn s va).toNat < s.numPtes.toNat then
    traceEntry (extractVpn s va) (s.entry (extractVpn s va).toNat)
  else traceNoEntry (extractVpn s va)

theorem xlateRecord_toNat (s : State) (va : Word) :
    (xlateRecord s va).toNat = (extractVpn s va).toNat * 2 ^ 32 +
      if (extractVpn s va).toNat < s.numPtes.toNat then (s.entry (extractVpn s va).toNat &&& 0xFFFFF003).toNat
      else 4 := by
  unfold xlateRecord
  split
  case isTrue => rw [traceEntry_toNat, unreserved_toNat]
  case isFalse => exact traceNoEntry_toNat _

theorem exec_xlate_traces {va : Word} (h : exec (.xlate va) s = .next t) :
    t.traces = if s.phase = .ready then (s.emitTrace (xlateRecord s va)).traces else s.traces := by
  rcases execXlate_cases h with ⟨hp, rfl⟩ | ⟨hp, hb, rfl⟩ | ⟨hp, -, hb, rfl⟩
  · rw [if_neg hp, State.pushResponse_traces]
  · rw [if_pos hp, State.pushResponse_traces, xlateRecord, if_neg (Nat.not_lt.mpr hb)]
  · rw [if_pos hp, State.pushResponse_traces, xlateRecord, if_pos hb]

/-- LAYOUT, ALLOC and INIT emit no record: it is part of the frame of each. -/
theorem exec_traces_of_ne_xlate {i : Instr} (hi : ∀ va, i ≠ .xlate va) (h : exec i s = .next t) :
    t.traces = s.traces := by
  cases i with
  | layout a p =>
    obtain ⟨-, -, -, -, -, htraces, -⟩ := layoutFrame s t a p h
    exact htraces
  | alloc =>
    obtain ⟨-, -, -, htraces, -⟩ := allocFrame s t h
    exact htraces
  | init =>
    obtain ⟨-, -, -, -, htraces, -⟩ := initFrame s t h
    exact htraces
  | xlate va => exact absurd rfl (hi va)

end

/-- Settles O38: only XLATE in READY presents a record, which is emitted under TRACE_EN. -/
theorem traceEmission : Obligations.TraceEmission := by
  intro s t i h
  refine ⟨fun hi => exec_traces_of_ne_xlate hi h, ?_⟩
  by_cases hi : ∃ va, i = .xlate va
  case neg =>
    have hkept := exec_traces_of_ne_xlate (fun va hva => hi ⟨va, hva⟩) h
    exact ⟨fun _ => hkept, fun _ => hkept, fun va hva => absurd ⟨va, hva⟩ hi⟩
  case pos =>
    obtain ⟨va, rfl⟩ := hi
    have htraces := exec_xlate_traces h
    rw [State.emitTrace_traces] at htraces
    refine ⟨fun hp => ?outOfPhase, fun hen => ?disabled, fun va' hva hp hen => ?emitted⟩
    case outOfPhase => rwa [if_neg hp] at htraces
    case disabled => simpa [hen] using htraces
    case emitted =>
      cases hva
      exact ⟨xlateRecord s va, by simpa [hp, hen] using htraces, xlateRecord_toNat s va⟩

end Machine
end Sys2Proof

/-! ## Faults, stops, and what no command reads (60_exceptions.md R200 to R210; 42_translate.md R160) -/

namespace Sys2Proof
namespace Machine

/-- A state with another TRACE_EN and other streams: everything no command reads but to emit and to respond. -/
def State.observing (s : State) (en : Bool) (rs : List ResponseWord) (ts : List TraceWord) : State :=
  { s with params := { s.params with traceEn := en }, responses := rs, traces := ts }

theorem State.observing_traceEn (s : State) (rs : List ResponseWord) (ts : List TraceWord) :
    s.observing s.params.traceEn rs ts = s.withStreams rs ts := rfl

section
variable {s t : State} {i : Instr}

/-- A command gives the same response and writes the same whatever TRACE_EN and the streams hold. -/
theorem exec_observing (h : exec i s = .next t) (en : Bool) (rs : List ResponseWord) (ts : List TraceWord) :
    ∃ r ts', t.responses = s.responses ++ [r]
      ∧ exec i (s.observing en rs ts) = .next (t.observing en (rs ++ [r]) ts') := by
  cases i with
  | layout a p =>
    rcases execLayout_cases h with ⟨hp, rfl⟩ | ⟨hp, hc, rfl⟩ | ⟨k, hp, hc, rfl⟩
    · exact ⟨_, ts, rfl, exec_layout_of_phase_ne hp⟩
    · exact ⟨_, ts, rfl, exec_layout_of_invalid hp (configExponent_eq_none.mp hc)⟩
    · exact ⟨_, ts, rfl, exec_layout_of_valid (s := s.observing en rs ts) hp (configExponent_eq_some.mp hc)⟩
  | alloc =>
    rcases execAlloc_cases h with ⟨hp, rfl⟩ | ⟨hp, hle, hcap, rfl⟩ | ⟨hp, hle, hcap, rfl⟩
    · exact ⟨_, ts, rfl, exec_alloc_of_phase_ne hp⟩
    · exact ⟨_, ts, rfl, exec_alloc_of_count_gt (s := s.observing en rs ts) hp hle hcap⟩
    · exact ⟨_, ts, rfl, exec_alloc_of_count_le (s := s.observing en rs ts) hp hle hcap⟩
  | init =>
    rcases execInit_cases h with ⟨hp, rfl⟩ | ⟨hp, ho, rfl⟩
    · exact ⟨_, ts, rfl, exec_init_of_phase_ne hp⟩
    · exact ⟨_, ts, rfl, exec_init_of_owned (s := s.observing en rs ts) hp ho⟩
  | xlate va =>
    obtain ⟨st, data, ts₀, rfl⟩ := exec_xlate_next h
    have hanswer : XlateAnswers s va st data := ⟨ts₀, h⟩
    rw [xlateAnswers_iff] at hanswer
    obtain ⟨ts', hexec⟩ : XlateAnswers (s.observing en rs ts) va st data := xlateAnswers_iff.mpr hanswer
    exact ⟨_, ts', rfl, hexec⟩

/-- Settles O39: the case of `exec_observing` in which only TRACE_EN and the trace stream differ. -/
theorem traceDoesNotReachResponses : Obligations.TraceDoesNotReachResponses := by
  intro s t i en ts h
  obtain ⟨r, ts', hresp, hexec⟩ := exec_observing h en s.responses ts
  rw [← hresp] at hexec
  exact ⟨ts', hexec⟩

/-- The answer of a command: OK, or a fault, which carries no data and of which only AllocFailure writes (60_exceptions.md
R204, R207). -/
theorem exec_answer (h : exec i s = .next t) :
    ∃ st data u ts, t = u.withStreams (s.responses ++ [respWord st data]) ts
      ∧ (st ≠ .ok → data = 0 ∧ u = if st = .allocFailure then s.setPhase .failed else s) := by
  cases i with
  | layout a p =>
    rcases execLayout_cases h with ⟨-, rfl⟩ | ⟨-, -, rfl⟩ | ⟨k, -, -, rfl⟩
    · exact ⟨_, _, s, _, rfl, fun _ => ⟨rfl, rfl⟩⟩
    · exact ⟨_, _, s, _, rfl, fun _ => ⟨rfl, rfl⟩⟩
    · exact ⟨_, _, s.latchLayout a p _, _, rfl, fun hne => absurd rfl hne⟩
  | alloc =>
    rcases execAlloc_cases h with ⟨-, rfl⟩ | ⟨-, -, -, rfl⟩ | ⟨-, -, -, rfl⟩
    · exact ⟨_, _, s, _, rfl, fun _ => ⟨rfl, rfl⟩⟩
    · exact ⟨_, _, s.setPhase .failed, _, rfl, fun _ => ⟨rfl, rfl⟩⟩
    · exact ⟨_, _, s.allocateTable _, _, rfl, fun hne => absurd rfl hne⟩
  | init =>
    rcases execInit_cases h with ⟨-, rfl⟩ | ⟨-, -, rfl⟩
    · exact ⟨_, _, s, _, rfl, fun _ => ⟨rfl, rfl⟩⟩
    · exact ⟨_, _, s.fillTable, _, rfl, fun hne => absurd rfl hne⟩
  | xlate va =>
    rcases execXlate_cases h with ⟨-, rfl⟩ | ⟨-, -, rfl⟩ | ⟨-, -, -, rfl⟩
    · exact ⟨_, _, s, _, rfl, fun _ => ⟨rfl, rfl⟩⟩
    · exact ⟨_, _, s, _, State.pushResponse_emitTrace_eq s _ _, fun _ => ⟨rfl, rfl⟩⟩
    · refine ⟨_, _, s, _, State.pushResponse_emitTrace_eq s _ _, fun hne => ⟨if_neg hne, (if_neg ?_).symm⟩⟩
      have hmem := permission_mem_entryStatuses (s.entry (extractVpn s va).toNat)
      intro hfail
      rw [hfail] at hmem
      exact absurd hmem (by decide)

/-- After a fault nothing but the streams has changed, and PHASE under AllocFailure (60_exceptions.md R204, R207). -/
theorem exec_fault {st : Status} {data : Word} (h : exec i s = .next t)
    (hresp : t.responses = s.responses ++ [respWord st data]) (hst : st ≠ .ok) :
    data = 0 ∧ ∃ ts, t = (if st = .allocFailure then s.setPhase .failed else s).withStreams t.responses ts := by
  obtain ⟨st', data', u, ts, rfl, hfault⟩ := exec_answer h
  obtain ⟨rfl, rfl⟩ : st' = st ∧ data' = data := by simpa using hresp
  obtain ⟨hdata, hu⟩ := hfault hst
  exact ⟨hdata, ts, by rw [← hu]; rfl⟩

/-- Settles O44: without its streams the state after a fault is the one before, but for AllocFailure's PHASE. -/
theorem onlyAllocFailureWritesState : Obligations.OnlyAllocFailureWritesState := by
  intro s t i st data h hresp hst
  obtain ⟨hdata, ts, ht⟩ := exec_fault h hresp hst
  refine ⟨hdata, ?_⟩
  rw [ht]
  split <;> rfl

/-- Settles O47: after the fault only the streams differ, and no command reads them. -/
theorem faultLeavesNextCommandAlone : Obligations.FaultLeavesNextCommandAlone := by
  intro s t u i j st data h hresp hst hne hnext
  obtain ⟨-, ts, ht⟩ := exec_fault h hresp hst
  rw [if_neg hne] at ht
  obtain ⟨r, ts', hr, hexec⟩ := exec_observing hnext s.params.traceEn t.responses ts
  obtain ⟨-, -, -, -, -, hpar⟩ := exec_response hnext
  rw [State.observing_traceEn, ← ht, ← hpar, State.observing_traceEn] at hexec
  exact ⟨r, ts', hr, hexec⟩

/-- The states in which a command stops, and the name of the stop (10_state.md R32; 41_table_alloc_init.md R131; logs 6, 9). -/
inductive Stops (s : State) : Instr → Fault → Prop
  | alloc (hp : s.phase = .laidOut) (hlt : s.asb.toNat < s.psb.toNat) : Stops s .alloc .noEntryCount
  | init (hp : s.phase = .allocated) (ho : s.ptbrOwn = false) : Stops s .init .tableNotOwned
  | xlate (va : Word) (hp : s.phase = .ready) (hb : (extractVpn s va).toNat < s.numPtes.toNat)
      (ho : s.ptbrOwn = false) : Stops s (.xlate va) .tableNotOwned

theorem Stops.exec_eq {f : Fault} (h : Stops s i f) : exec i s = .fault f := by
  cases h with
  | alloc hp hlt => rw [exec, execAlloc, if_pos hp, if_neg (Nat.not_le.mpr hlt)]
  | init hp ho => simp [exec, execInit, hp, ho]
  | xlate va hp hb ho =>
    have hin : ¬ s.numPtes ≤ (extractVpn s va).setWidth 33 := mt (numPtes_le_setWidth s _).mp (Nat.not_le.mpr hb)
    rw [exec, execXlate, if_pos hp, lookupXlate, if_neg hin, memRead_of_not_owned ho]

/-- A command ends in a next state or stops: in its phase each check either leads to an answer or is a `Stops`. -/
theorem exec_next_or_stops (i : Instr) (s : State) : (∃ t, exec i s = .next t) ∨ ∃ f, Stops s i f := by
  by_cases hp : s.phase = allowedPhase i
  case neg => exact .inl ⟨_, exec_of_phase_ne hp⟩
  case pos =>
    cases i with
    | layout a p =>
      by_cases hv : ∃ k, ValidConfig a p k
      case pos => exact .inl ⟨_, exec_layout_of_valid hp hv.choose_spec⟩
      case neg => exact .inl ⟨_, exec_layout_of_invalid hp hv⟩
    | alloc =>
      rcases Nat.lt_or_ge s.asb.toNat s.psb.toNat with hlt | hle
      · exact .inr ⟨_, .alloc hp hlt⟩
      rcases Nat.lt_or_ge s.params.tableCap.toNat (entryCount s.asb.toNat s.psb.toNat) with hcap | hcap
      · exact .inl ⟨_, exec_alloc_of_count_gt hp hle hcap⟩
      · exact .inl ⟨_, exec_alloc_of_count_le hp hle hcap⟩
    | init =>
      cases ho : s.ptbrOwn with
      | false => exact .inr ⟨_, .init hp ho⟩
      | true => exact .inl ⟨_, exec_init_of_owned hp ho⟩
    | xlate va =>
      rcases Nat.lt_or_ge (extractVpn s va).toNat s.numPtes.toNat with hb | hb
      · cases ho : s.ptbrOwn with
        | false => exact .inr ⟨_, .xlate va hp hb ho⟩
        | true => exact .inl ⟨_, execXlate_entry hp ho hb⟩
      · exact .inl ⟨_, execXlate_outOfRange hp hb⟩

theorem exec_eq_fault_iff {f : Fault} : exec i s = .fault f ↔ Stops s i f := by
  refine ⟨fun h => ?_, Stops.exec_eq⟩
  rcases exec_next_or_stops i s with ⟨t, hnext⟩ | ⟨f', hstops⟩
  · rw [h] at hnext
    cases hnext
  · have hf := hstops.exec_eq
    rw [h] at hf
    cases hf
    exact hstops

theorem exec_ne_refused (i : Instr) (s : State) (q : Refusal) : exec i s ≠ .refused q := by
  intro h
  rcases exec_next_or_stops i s with ⟨t, hnext⟩ | ⟨f, hstops⟩
  · rw [h] at hnext
    cases hnext
  · have hf := hstops.exec_eq
    rw [h] at hf
    cases hf

end

/-- Settles O48: the three ways to stop, sorted by the name of the stop. -/
theorem stopsNameTheirCause : Obligations.StopsNameTheirCause := by
  refine fun s i => ⟨exec_eq_fault_iff.trans ⟨?count, ?countStops⟩, exec_eq_fault_iff.trans ⟨?owner, ?ownerStops⟩,
    ?address, exec_ne_refused i s⟩
  case count =>
    rintro ⟨hp, hlt⟩
    exact ⟨rfl, hp, hlt⟩
  case address =>
    rw [Ne, exec_eq_fault_iff]
    exact nofun
  case countStops =>
    rintro ⟨rfl, hp, hlt⟩
    exact .alloc hp hlt
  case owner =>
    intro h
    cases h with
    | init hp ho => exact ⟨ho, .inl ⟨rfl, hp⟩⟩
    | xlate va hp hb ho => exact ⟨ho, .inr ⟨va, rfl, hp, hb⟩⟩
  case ownerStops =>
    rintro ⟨ho, ⟨rfl, hp⟩ | ⟨va, rfl, hp, hb⟩⟩
    · exact .init hp ho
    · exact .xlate va hp hb ho

end Machine
end Sys2Proof

/-! ## The construction invariant and CONSTRUCT (10_state.md R23, R34; 30_encoding.md R96; 70_reset_and_hazards.md R252) -/

namespace Sys2Proof
namespace Machine

section
variable {s t : State} {a p : BitVec 16} {k : Nat}

theorem ValidConfig.asb_toNat (hv : ValidConfig a p k) : (a.setWidth 6).toNat = a.toNat := by
  obtain ⟨⟨-, hmax⟩, -⟩ := hv
  rw [BitVec.toNat_setWidth]
  omega

theorem ValidConfig.ps_toNat (hv : ValidConfig a p k) : (p.setWidth 13).toNat = 2 ^ k := by
  obtain ⟨-, ⟨-, hmax⟩, hpow, -⟩ := hv
  rw [BitVec.toNat_setWidth, ← hpow]
  omega

theorem computeLayout_pageSizeBits_toNat (k : Fin 13) : (computeLayout k).pageSizeBits.toNat = k.val := by
  revert k; decide

theorem computeLayout_offsetMask_toNat (k : Fin 13) : (computeLayout k).offsetMask.toNat = 2 ^ k.val - 1 := by
  revert k; decide

theorem computeLayout_vpnMask_toNat (k : Fin 13) : (computeLayout k).vpnMask.toNat = 2 ^ 32 - 2 ^ k.val := by
  revert k; decide

/-- The layout registers LAYOUT latches on a valid configuration are good (10_state.md R34). -/
theorem State.latchLayout_layoutOk (s : State) (hv : ValidConfig a p k) :
    (s.latchLayout a p (computeLayout ⟨k, hv.exponent_lt⟩)).LayoutOk := by
  have hk := hv.exponent_lt
  have hasb := hv.asb_toNat
  have hpsb := computeLayout_pageSizeBits_toNat ⟨k, hk⟩
  unfold State.LayoutOk
  simp only [State.latchLayout_asb, State.latchLayout_psb, State.latchLayout_ps, State.latchLayout_shift,
    State.latchLayout_pfnShift, State.latchLayout_offsetMask, State.latchLayout_vpnMask, hasb, hpsb]
  obtain ⟨hrange, -, -, hle⟩ := id hv
  exact ⟨hrange, ⟨by omega, hle⟩, hv.ps_toNat, ⟨rfl, rfl⟩, computeLayout_offsetMask_toNat _,
    computeLayout_vpnMask_toNat _⟩

/-- Outside READY the table of the invariant is ALLOC's, or none: nothing listed, every word zero. -/
theorem State.Inv.tbl_eq_zeroed (hi : s.Inv) (hp : s.phase ≠ .ready) : s.tbl = Memory.zeroed := by
  obtain ⟨-, -, -, -, htbl⟩ := hi
  rw [htbl, if_neg hp, Memory.zeroed]

theorem State.Inv.not_owned (hi : s.Inv) (hp : ¬ s.phase.hasTable) : s.ptbrOwn = false := by
  obtain ⟨-, -, -, hnot, -⟩ := hi
  exact hnot hp

theorem State.Inv.layoutOk (hi : s.Inv) (hp : s.phase ≠ .reset) : s.LayoutOk := by
  obtain ⟨-, hlayout, -⟩ := hi
  exact hlayout hp

/-! ### Each write of a construction step, in its phase, keeps the invariant -/

theorem State.Inv.latchLayout (hi : s.Inv) (hp : s.phase = .reset) (hv : ValidConfig a p k) :
    (s.latchLayout a p (computeLayout ⟨k, hv.exponent_lt⟩)).Inv :=
  ⟨hi.1, fun _ => s.latchLayout_layoutOk hv, fun ht => ht.elim nofun nofun,
    fun _ => hi.not_owned (by rw [hp]; decide), hi.tbl_eq_zeroed (by rw [hp]; decide)⟩

theorem State.Inv.setPhase_failed (hi : s.Inv) (hp : s.phase = .laidOut) : (s.setPhase .failed).Inv :=
  ⟨hi.1, fun _ => hi.layoutOk (by rw [hp]; decide), fun ht => ht.elim nofun nofun,
    fun _ => hi.not_owned (by rw [hp]; decide), hi.tbl_eq_zeroed (by rw [hp]; decide)⟩

theorem State.Inv.allocateTable (hi : s.Inv) (hp : s.phase = .laidOut)
    (hcap : entryCount s.asb.toNat s.psb.toNat ≤ s.params.tableCap.toNat) :
    (s.allocateTable (entryCount s.asb.toNat s.psb.toNat)).Inv := by
  have hn := numPtes_toNat_of_le_cap hcap
  exact ⟨hi.1, fun _ => hi.layoutOk (by rw [hp]; decide), fun _ => ⟨hn, Nat.le_trans (Nat.le_of_eq hn) hcap, rfl⟩,
    fun hnot => absurd (.inl rfl) hnot, rfl⟩

theorem State.Inv.fillTable (hi : s.Inv) (hp : s.phase = .allocated) : s.fillTable.Inv := by
  have htable : s.TableOk := by
    obtain ⟨-, -, htable, -⟩ := hi
    exact htable (.inl hp)
  refine ⟨hi.1, fun _ => hi.layoutOk (by rw [hp]; decide), fun _ => htable, fun hnot => absurd (.inr rfl) hnot, ?_⟩
  rw [State.fillTable_tbl, hi.tbl_eq_zeroed (by rw [hp]; decide)]
  rfl

/-- The invariant does not speak of the streams, so of a command's answers only the accepted ones and AllocFailure matter. -/
theorem State.Inv.exec_next {i : Instr} (hi : s.Inv) (h : exec i s = .next t) : t.Inv := by
  cases i with
  | layout a p =>
    rcases execLayout_cases h with ⟨-, rfl⟩ | ⟨-, -, rfl⟩ | ⟨k, hp, hc, rfl⟩
    · exact hi
    · exact hi
    · exact hi.latchLayout hp (configExponent_eq_some.mp hc)
  | alloc =>
    rcases execAlloc_cases h with ⟨-, rfl⟩ | ⟨hp, -, -, rfl⟩ | ⟨hp, -, hcap, rfl⟩
    · exact hi
    · exact hi.setPhase_failed hp
    · exact hi.allocateTable hp hcap
  | init =>
    rcases execInit_cases h with ⟨-, rfl⟩ | ⟨hp, -, rfl⟩
    · exact hi
    · exact hi.fillTable hp
  | xlate va =>
    obtain ⟨st, data, ts, rfl⟩ := exec_xlate_next h
    exact hi

theorem hardwareReset_inv (h : s.ParamsOk) : (hardwareReset s).Inv :=
  ⟨h, fun hp => absurd rfl hp, fun ht => ht.elim nofun nofun, fun _ => rfl, rfl⟩

end

/-- Settles O50: a reset and each command keep the invariant, and an illegal word writes the response stream only. -/
theorem stepKeepsConstructionInvariant : Obligations.StepKeepsConstructionInvariant := by
  intro s t hi h
  rcases step_cases h with ⟨-, rfl⟩ | ⟨rest, -, rfl⟩ | ⟨w, rest, i, -, -, hexec⟩ | ⟨w, rest, e, -, -, rfl⟩
  · exact hi
  · exact hardwareReset_inv hi.1
  · exact State.Inv.exec_next (s := s.withInputs rest) hi hexec
  · exact hi

/-- Settles O52: the phase transition table has a cell for every word. -/
theorem stepNeverStops : Obligations.StepNeverStops := by
  intro s hi
  cases hin : s.inputs with
  | nil => exact ⟨s, step_of_no_input hin⟩
  | cons input rest =>
    cases input with
    | reset => exact ⟨_, step_of_reset hin⟩
    | command w =>
      have hrest : (s.withInputs rest).Inv := hi
      obtain ⟨t, -, -, hrun, -⟩ := hrest.runCommand_followsCell w
      exact ⟨t, (step_of_command hin).trans hrun⟩

/-! ### CONSTRUCT (30_encoding.md R96) -/

section
variable {s : State} {data : Word} {k : State → Result}

theorem continueIfOk_ok : continueIfOk (.next (s.pushResponse (respWord .ok data))) k
    = k (s.pushResponse (respWord .ok data)) := by
  simp [continueIfOk]

theorem continueIfOk_fault {st : Status} (hst : st ≠ .ok) :
    continueIfOk (.next (s.pushResponse (respWord st data))) k = .next (s.pushResponse (respWord st data)) := by
  have hcode : statusCode st ≠ statusCode .ok := fun h => hst (statusCode_inj h)
  simp [continueIfOk, hcode]

end

/-- What an accepted LAYOUT leaves. -/
def State.laidOut (s : State) (a p : BitVec 16) (k : Fin 13) : State :=
  (s.latchLayout a p (computeLayout k)).pushResponse (respWord .ok 0)

section
variable {s : State} {a p : BitVec 16} {k : Nat}

/-- An accepted LAYOUT is followed by ALLOC (30_encoding.md R96). -/
theorem construct_of_valid (hp : s.phase = .reset) (hv : ValidConfig a p k) :
    construct a p s = continueIfOk (exec .alloc (s.laidOut a p ⟨k, hv.exponent_lt⟩)) (exec .init) := by
  rw [construct, exec_layout_of_valid hp hv, continueIfOk_ok]
  rfl

theorem State.Inv.laidOut (hi : s.Inv) (hp : s.phase = .reset) (hv : ValidConfig a p k) :
    (s.laidOut a p ⟨k, hv.exponent_lt⟩).Inv := hi.latchLayout hp hv

/-- ALLOC's count after LAYOUT is computed from the operands LAYOUT was given (41_table_alloc_init.md R131). -/
theorem State.laidOut_entryCount (s : State) (hv : ValidConfig a p k) :
    entryCount (s.laidOut a p ⟨k, hv.exponent_lt⟩).asb.toNat (s.laidOut a p ⟨k, hv.exponent_lt⟩).psb.toNat
      = 2 ^ (a.toNat - k) :=
  congrArg₂ entryCount hv.asb_toNat (computeLayout_pageSizeBits_toNat ⟨k, hv.exponent_lt⟩)

end

/-- Settles O49: the three commands run one after the other, each on what the one before left. -/
theorem constructOutcome : Obligations.ConstructOutcome := by
  intro s a p hi hp
  refine ⟨fun k hv hcap => ?ready, fun hv => ?invalid, fun k hv hcap => ?failed⟩
  case ready =>
    have hlaid := hi.laidOut hp hv
    rw [← s.laidOut_entryCount hv] at hcap
    have halloced := hlaid.allocateTable rfl hcap
    rw [construct_of_valid hp hv, exec_alloc_of_count_le rfl (hlaid.psb_le_asb nofun) hcap, continueIfOk_ok,
      exec_init_of_owned rfl rfl]
    refine ⟨_, rfl, rfl, halloced.fillTable rfl, hv.asb_toNat, computeLayout_pageSizeBits_toNat _, ?_⟩
    simp [State.laidOut]
  case invalid =>
    rw [construct, exec_layout_of_invalid hp hv, continueIfOk_fault (by decide)]
    rfl
  case failed =>
    have hlaid := hi.laidOut hp hv
    rw [← s.laidOut_entryCount hv] at hcap
    rw [construct_of_valid hp hv, exec_alloc_of_count_gt rfl (hlaid.psb_le_asb nofun) hcap,
      continueIfOk_fault (by decide)]
    refine ⟨_, rfl, rfl, hi.not_owned (by rw [hp]; decide), ?_⟩
    simp [State.laidOut]

end Machine
end Sys2Proof
